-- ==== Sys2Proof/Word.lean ====
section
/-! DEFINITION. The widths of the core's values (rules R5, R7) and the names of its lane registers (R20). -/

namespace Sys2Proof

/-- `u64`: a lane state, an increment, an operand beat, a result (R5, R7). -/
abbrev Word := BitVec 64

/-- `u32`: a lane output, half of a draw (R5). -/
abbrev Half := BitVec 32

/-- One byte of the SEED_BYTES block (R9, R42). -/
abbrev Byte := BitVec 8

/-- The four lane registers `x[0]` to `x[3]`, in that order (R20). -/
inductive LaneReg where
  | stateA
  | incA
  | stateB
  | incB
deriving DecidableEq, Repr

end Sys2Proof
end

