-- ==== Sys2Proof/Config.lean ====
section
/-! DEFINITION. The parameters the spec leaves open (R6, R33, 92 D10): constants with no body, so that no proof can
use a value of them ("A model must not assume any particular value of the four reset parameters", R33). -/

namespace Sys2Proof

/-- `RESET_STATE_A` (R6, R33): any 64-bit value. DESIGN CHOICE, safe: log 1. -/
opaque Config.resetStateA : Word

/-- Bits 63..1 of `RESET_INC_A` (R6, R33); bit 0 is hard-wired to 1 (R22). DESIGN CHOICE, safe: log 1. -/
opaque Config.resetIncHiA : BitVec 63

/-- `RESET_STATE_B` (R6, R33): any 64-bit value. DESIGN CHOICE, safe: log 1. -/
opaque Config.resetStateB : Word

/-- Bits 63..1 of `RESET_INC_B` (R6, R33); it may equal `RESET_INC_A`'s. DESIGN CHOICE, safe: log 1. -/
opaque Config.resetIncHiB : BitVec 63

end Sys2Proof
end

