-- ==== Sys2Proof/Syntax.lean ====
section
/-! DEFINITION. The commands (R67) and the transaction that carries one (R60). -/

namespace Sys2Proof

/-- One transaction of the command port: the 32-bit command word and the operand beats presented with it (R60). -/
structure Transaction where
  word  : BitVec 32
  beats : List Word
deriving DecidableEq, Repr

/-- The seven commands, each with its operands (R65, R67). -/
inductive Instr where
  /-- SEED, OP 0x01 (R106). -/
  | seed (seed1 seed2 seq1 seq2 : Word)
  /-- SEED_BYTES, OP 0x02 (R107): `opbyte(0)` first; 32 bytes where well formed. -/
  | seedBytes (block : List Byte)
  /-- SEED_DRAW, OP 0x03 (R109). -/
  | seedDraw
  /-- NEXT, OP 0x10 (R124). -/
  | next
  /-- ADVANCE, OP 0x20 (R143): `delta` is the bit pattern of an i64 (R66). -/
  | advance (delta : Word)
  /-- READ_STATE, OP 0x30 (R160). -/
  | readState (sel : LaneReg)
  /-- READ_STATUS, OP 0x31 (R162). -/
  | readStatus
deriving DecidableEq, Repr

end Sys2Proof
end

