-- ==== Sys2Proof/Machine/State.lean ====
section
/-! DEFINITION. The state of the core (R20 to R33), the events that reach it (R41), its responses (R60), the reasons a
step can stop, and the state after reset (R33). -/

namespace Sys2Proof.Machine

open Sys2Proof

/-- Completion codes (R180). Codes 3..15 are never produced, so they have no name here (I9). -/
inductive Code where
  | ok
  | illegal
  | entropy
deriving DecidableEq, Repr

/-- A response: `CODE` and `RESULT` (R60). -/
structure Response where
  code   : Code
  result : Word
deriving DecidableEq, Repr

/-- The answer to one entropy request: `Word(v)` or `Fail` (R190). -/
inductive Answer where
  | word (v : Word)
  | fail
deriving DecidableEq, Repr

/-- An event that reaches the core from outside (R41, R190, R210). -/
inductive Input where
  /-- The host presents a command, as one unit (R60); while the core is BUSY it waits at the port (R32, R216). -/
  | command (t : Transaction)
  /-- The host presents a command, the core accepts it when IDLE, and reset arrives before the response (R210). -/
  | commandCutByReset (t : Transaction)
  /-- The entropy source answers request number `req`, the first request being number 1 (R190; log 5). -/
  | answer (req : Nat) (a : Answer)
  /-- Reset is asserted and released (R210; log 9). -/
  | reset
deriving DecidableEq, Repr

/-- One Stream32 (R1, R20): its state, and the writable bits 63..1 of its increment, whose bit 0 is hard-wired to 1 (R22;
log 2). -/
structure Lane where
  state : Word
  incHi : BitVec 63
deriving DecidableEq, Repr

/-- BUSY or IDLE (R32). At a step boundary BUSY means: a SEED_DRAW waits on the entropy port (R190). -/
inductive Activity where
  | idle
  | busy
deriving DecidableEq, Repr

/-- The state of one core, and beside it the model's record of the world outside. -/
structure State where
  /-- Lane A: `x[0]` STATE_A and `x[1]` INC_A (R20). -/
  laneA      : Lane
  /-- Lane B: `x[2]` STATE_B and `x[3]` INC_B (R20). -/
  laneB      : Lane
  /-- STATUS.SEEDED (R28). -/
  seeded     : Bool
  /-- STATUS.ENT_FAIL (R29). -/
  entFail    : Bool
  /-- BUSY/IDLE (R32). -/
  activity   : Activity
  /-- The entropy collection buffer `w[0..]`, oldest first; its length is the count (R31). -/
  entropyBuf : List Word
  /-- MODEL'S OWN: the events still to reach the core, in the order they arrive (log 3). -/
  inputs     : List Input
  /-- MODEL'S OWN: the responses sent so far, newest first (log 6). -/
  responses  : List Response
  /-- MODEL'S OWN: the number of entropy requests issued so far; the last one's number (log 5). -/
  requests   : Nat
deriving DecidableEq, Repr

/-- The core has no trap, exception or fault of any kind (R184, R186, R187): errors are completion codes. No constructor. -/
inductive Fault where
deriving DecidableEq, Repr

/-- The model gives no meaning. -/
inductive Refusal where
  /-- Raised by an arm of `exec` for an instruction that has no meaning yet: no arm does. Safe. -/
  | notModelled (mnemonic : String)
  /-- Raised by the command port (`nextEvent`) for a legal word with a beat count other than `K(OP)`: "The core has no
  defined response to it, and a model refuses it" (R70, I7). Safe. -/
  | beatCount
  /-- Raised by `execSeedBytes` for a block that is not 32 bytes: "not a command the core accepts" (R45, R70). The decoder
  never makes such a term. Safe. -/
  | blockLength
deriving DecidableEq, Repr

/-- The state after reset (R33): the lanes hold the four open parameters (log 1), STATUS is 0, the core is IDLE and the
entropy buffer is empty. Nothing has been presented, sent or requested (logs 3, 5, 6). -/
def State.reset : State where
  laneA      := { state := Config.resetStateA, incHi := Config.resetIncHiA }
  laneB      := { state := Config.resetStateB, incHi := Config.resetIncHiB }
  seeded     := false
  entFail    := false
  activity   := .idle
  entropyBuf := []
  inputs     := []
  responses  := []
  requests   := 0

end Sys2Proof.Machine
end

