-- ==== Sys2Proof/Machine/Flags.lean ====
section
/-! DEFINITION. STATUS and its two fields (R27 to R29), the core's only status bits: there are no condition codes and
no arithmetic flags (R26). -/

namespace Sys2Proof.Machine

open Sys2Proof

/-- The STATUS word: bit 0 SEEDED, bit 1 ENT_FAIL, bits 63:2 hard-wired 0 (R27). -/
def statusWord (seeded entFail : Bool) : Word := (0#62 ++ BitVec.ofBool entFail) ++ BitVec.ofBool seeded

/-- STATUS as READ_STATUS returns it (R162). -/
def State.status (s : State) : Word := statusWord s.seeded s.entFail

/-- `STATUS.SEEDED <- 1` (R28, R105). -/
def State.setSeeded (s : State) : State := { s with seeded := true }

/-- `STATUS.ENT_FAIL <- 1`, sticky (R29, R110). -/
def State.setEntFail (s : State) : State := { s with entFail := true }

end Sys2Proof.Machine
end

