-- ==== Sys2Proof/WellFormed.lean ====
section
/-! DEFINITION. Which terms of `Instr` are commands of the core: a SEED_BYTES block has exactly 32 bytes (R45, R70).
Every other operand has its width in its type, and every value of it is legal (R63, R181). -/

namespace Sys2Proof

/-- The block length of SEED_BYTES (R5, R45). -/
def blockBytes : Nat := 32

/-- The command is one the core accepts. -/
def Instr.wf : Instr → Bool
  | .seed _ _ _ _ => true
  | .seedBytes block => block.length == blockBytes
  | .seedDraw => true
  | .next => true
  | .advance _ => true
  | .readState _ => true
  | .readStatus => true

end Sys2Proof
end

