-- ==== Sys2Proof/Decode.lean ====
section
/-! DEFINITION. From a transaction to a command (R61 to R70), back again, and the same for the numbers of
spec/opcode_table.json. Rejections have names. -/

namespace Sys2Proof

/-! ### Bit fields of the command word (R61) -/

/-- OP, bits 7:0. -/
def fieldOp (w : BitVec 32) : BitVec 8 := w.extractLsb' 0 8

/-- SEL, bits 9:8. -/
def fieldSel (w : BitVec 32) : BitVec 2 := w.extractLsb' 8 2

/-- RSV, bits 31:10. -/
def fieldRsv (w : BitVec 32) : BitVec 22 := w.extractLsb' 10 22

/-- The command word `{RSV = 0, SEL, OP}`. -/
def mkWord (sel : BitVec 2) (op : BitVec 8) : BitVec 32 := (0#22 ++ sel) ++ op

/-- The register a selector names (R20, R63). -/
def LaneReg.ofSel (sel : BitVec 2) : LaneReg :=
  if sel = 0#2 then .stateA else if sel = 1#2 then .incA else if sel = 2#2 then .stateB else .incB

/-- The selector of a register (R20). -/
def LaneReg.sel : LaneReg → BitVec 2
  | .stateA => 0#2
  | .incA => 1#2
  | .stateB => 2#2
  | .incB => 3#2

/-! ### Byte order (R42, R66) -/

/-- The bytes a beat carries, `opbyte(8k)` first: `opbyte(8k+j)` is beat bits `[8j+7:8j]` (R66). -/
def bytesOfBeat (v : Word) : List Byte :=
  [v.extractLsb' 0 8, v.extractLsb' 8 8, v.extractLsb' 16 8, v.extractLsb' 24 8,
   v.extractLsb' 32 8, v.extractLsb' 40 8, v.extractLsb' 48 8, v.extractLsb' 56 8]

/-- `opbyte(i)` as a u64 (R9). A well-formed block has every byte that R42 reads. -/
def opbyte (block : List Byte) (i : Nat) : Word := (block.getD i 0#8).setWidth 64

/-- `w[k]` of R42: the little-endian word of bytes `8k` to `8k+7`. -/
def blockWord (block : List Byte) (k : Nat) : Word :=
  opbyte block (8 * k + 0) ||| (opbyte block (8 * k + 1) <<< 8) |||
  (opbyte block (8 * k + 2) <<< 16) ||| (opbyte block (8 * k + 3) <<< 24) |||
  (opbyte block (8 * k + 4) <<< 32) ||| (opbyte block (8 * k + 5) <<< 40) |||
  (opbyte block (8 * k + 6) <<< 48) ||| (opbyte block (8 * k + 7) <<< 56)

/-! ### Decoding the command word (R68) -/

/-- What a legal command word selects: a command without its operand beats (R67, R68). -/
inductive Command where
  | seed
  | seedBytes
  | seedDraw
  | next
  | advance
  | readState (sel : LaneReg)
  | readStatus
deriving DecidableEq, Repr

/-- Why a command word is illegal: the three grounds of R69. -/
inductive Illegal where
  /-- A bit of RSV is set (R64). -/
  | rsv
  /-- SEL is not 0 and the command is not READ_STATE (R63). -/
  | sel
  /-- OP is none of the seven (R62). -/
  | op
deriving DecidableEq, Repr

/-- `decode(word)` of R68, case by case and in its order. -/
def decodeWord (w : BitVec 32) : Except Illegal Command :=
  if fieldRsv w ≠ 0#22 then .error .rsv
  else if fieldOp w = 0x30#8 then .ok (.readState (LaneReg.ofSel (fieldSel w)))
  else if fieldSel w ≠ 0#2 then .error .sel
  else if fieldOp w = 0x01#8 then .ok .seed
  else if fieldOp w = 0x02#8 then .ok .seedBytes
  else if fieldOp w = 0x03#8 then .ok .seedDraw
  else if fieldOp w = 0x10#8 then .ok .next
  else if fieldOp w = 0x20#8 then .ok .advance
  else if fieldOp w = 0x31#8 then .ok .readStatus
  else .error .op

/-! ### Operands (R65, R66) and the whole transaction (R70) -/

/-- `K(OP)`: the number of operand beats (R65). -/
def Command.beatCount : Command → Nat
  | .seed => 4
  | .seedBytes => 4
  | .seedDraw => 0
  | .next => 0
  | .advance => 1
  | .readState _ => 0
  | .readStatus => 0

/-- A command of no operand, if no beat comes with it. -/
def operands0 (i : Instr) : List Word → Option Instr
  | [] => some i
  | _ => none

/-- A command of one operand, if one beat comes with it. -/
def operands1 (f : Word → Instr) : List Word → Option Instr
  | [a] => some (f a)
  | _ => none

/-- A command of four operands, if four beats come with it. -/
def operands4 (f : Word → Word → Word → Word → Instr) : List Word → Option Instr
  | [a, b, c, d] => some (f a b c d)
  | _ => none

/-- The command with its beats (R65, R66); none where their number is not `K(OP)` (R70). -/
def Command.withBeats (c : Command) (beats : List Word) : Option Instr :=
  match c with
  | .seed => operands4 Instr.seed beats
  | .seedBytes =>
    operands4 (fun a b c d => .seedBytes (bytesOfBeat a ++ bytesOfBeat b ++ bytesOfBeat c ++ bytesOfBeat d)) beats
  | .seedDraw => operands0 .seedDraw beats
  | .next => operands0 .next beats
  | .advance => operands1 Instr.advance beats
  | .readState sel => operands0 (.readState sel) beats
  | .readStatus => operands0 .readStatus beats

/-- Why a transaction is no command. -/
inductive DecodeError where
  /-- The word is illegal (R69): the core answers ILLEGAL and discards the beats (R182). -/
  | illegal (why : Illegal)
  /-- The word is legal and the beat count is not `K(OP)`: a host protocol violation (R70, I7). -/
  | beatCount
deriving DecidableEq, Repr

/-- Decoding a transaction. The word alone decides legality; an illegal word's beats are not looked at (R70, R185). -/
def decode (t : Transaction) : Except DecodeError Instr :=
  match decodeWord t.word with
  | .error why => .error (.illegal why)
  | .ok c =>
    match c.withBeats t.beats with
    | some i => .ok i
    | none => .error .beatCount

/-! ### Encoding (R61, R65 to R67) -/

/-- The command word of a command (R67). -/
def Command.word : Command → BitVec 32
  | .seed => mkWord 0#2 0x01#8
  | .seedBytes => mkWord 0#2 0x02#8
  | .seedDraw => mkWord 0#2 0x03#8
  | .next => mkWord 0#2 0x10#8
  | .advance => mkWord 0#2 0x20#8
  | .readState sel => mkWord sel.sel 0x30#8
  | .readStatus => mkWord 0#2 0x31#8

/-- The command of an instruction, its operands left out. -/
def Instr.command : Instr → Command
  | .seed _ _ _ _ => .seed
  | .seedBytes _ => .seedBytes
  | .seedDraw => .seedDraw
  | .next => .next
  | .advance _ => .advance
  | .readState sel => .readState sel
  | .readStatus => .readStatus

/-- The operand beats of an instruction (R65, R66). -/
def Instr.beats : Instr → List Word
  | .seed a b c d => [a, b, c, d]
  | .seedBytes block => [blockWord block 0, blockWord block 1, blockWord block 2, blockWord block 3]
  | .seedDraw => []
  | .next => []
  | .advance d => [d]
  | .readState _ => []
  | .readStatus => []

/-- The transaction that carries a well-formed instruction. -/
def encode (i : Instr) : Transaction := { word := i.command.word, beats := i.beats }

/-! ### The numbering of spec/opcode_table.json -/

/-- The transaction whose bits are the low `nbits` bits of `w`: the command word is bits 31..0 and beat `k` is bits
`64k+95 .. 64k+32`, `K(OP)` beats for a legal word and none for an illegal one (R70; log 14). -/
def transactionOfNat (nbits w : Nat) : Transaction :=
  let v := w % 2 ^ nbits
  let word := BitVec.ofNat 32 v
  match decodeWord word with
  | .error _ => { word := word, beats := [] }
  | .ok c => { word := word, beats := (List.range c.beatCount).map fun k => BitVec.ofNat 64 (v >>> (32 + 64 * k)) }

/-- The instruction the decoder reads from an opcode-table word. -/
def decodeTableWord (nbits w : Nat) : Option Instr :=
  match decode (transactionOfNat nbits w) with
  | .ok i => some i
  | .error _ => none

end Sys2Proof
end

