-- ==== Sys2Proof/Machine/Operands.lean ====
section
/-! DEFINITION. What a command makes of its operands (R65, R66): SEED's beats are used as they are, ADVANCE reads its
beat as unsigned, SEED_BYTES reads its block as four little-endian words. -/

namespace Sys2Proof.Machine

open Sys2Proof

/-- The four seed words, in the order seed1, seed2, seq1, seq2 (R65). -/
structure SeedWords where
  seed1 : Word
  seed2 : Word
  seq1  : Word
  seq2  : Word
deriving DecidableEq, Repr

/-- The seed words of a SEED_BYTES block: `w[0..3]` of R42, used in that order (R107). -/
def SeedWords.ofBlock (block : List Byte) : SeedWords where
  seed1 := blockWord block 0
  seed2 := blockWord block 1
  seq1  := blockWord block 2
  seq2  := blockWord block 3

/-- The seed words of an entropy buffer: the words in the order they arrived (R109). A full buffer has all four. -/
def SeedWords.ofBuffer (w : List Word) : SeedWords where
  seed1 := w.getD 0 0#64
  seed2 := w.getD 1 0#64
  seq1  := w.getD 2 0#64
  seq2  := w.getD 3 0#64

/-- `u64(delta)`: the same 64 bits read as unsigned, `delta mod 2^64` (R8, R140). -/
def u64 (delta : Int) : Word := BitVec.ofInt 64 delta

end Sys2Proof.Machine
end

