-- ==== Sys2Proof/Machine/Ops.lean ====
section
/-! DEFINITION. The operations every command is written with: the lane registers (R20 to R22), the LCG step (R120), the
response (R9, R60, R180), accepting a command (R32), the entropy port (R190) and reset (R210). -/

namespace Sys2Proof.Machine

open Sys2Proof

/-! ### Lane registers -/

/-- The multiplier of both lanes (R24). -/
def mult : Word := 0x5851f42d4c957f2d#64

/-- A read of INC_L: bits 63..1 as stored, bit 0 always 1 (R22). -/
def Lane.inc (l : Lane) : Word := l.incHi ++ 1#1

/-- `STATE_L <- v` (R21). -/
def Lane.setState (l : Lane) (v : Word) : Lane := { l with state := v }

/-- `INC_L <- v`: bits 63..1 are written, bit 0 is hard-wired (R22). -/
def Lane.setInc (l : Lane) (v : Word) : Lane := { l with incHi := v.extractLsb' 1 63 }

/-- A read of `x[i]` (R9, R20). -/
def State.x (s : State) : LaneReg → Word
  | .stateA => s.laneA.state
  | .incA => s.laneA.inc
  | .stateB => s.laneB.state
  | .incB => s.laneB.inc

/-- LaneStep(L): `STATE_L <- STATE_L * MULT + INC_L`, mod 2^64 (R120). The constant stands first (the product mod 2^64 is the
same): with a literal on the right Lean's unifier counts down from it. -/
def laneStep (l : Lane) : Lane := l.setState (mult * l.state + l.inc)

/-- The two lanes replaced together (R219). -/
def State.setLanes (s : State) (a b : Lane) : State := { s with laneA := a, laneB := b }

/-! ### Responses -/

/-- The 4-bit CODE of a completion code (R180). -/
def Code.bits : Code → BitVec 4
  | .ok => 0#4
  | .illegal => 1#4
  | .entropy => 2#4

/-- `respond(code, result)`: the command's one response is sent and the core is IDLE again (R9, R32, R60). -/
def State.respond (s : State) (code : Code) (result : Word) : State :=
  { s with activity := .idle, responses := { code := code, result := result } :: s.responses }

/-- `raise <Code>`: `respond(<Code>, 0)` (R9). This is all there is to an error of this core: nothing is saved, no
control is transferred, no mode changes, and there is no return from it (R187, R188). -/
def State.raise (s : State) (code : Code) : State := s.respond code 0#64

/-! ### Accepting a command -/

/-- The core takes the command at its port, whose later events are `rest`, and is BUSY with it (R32). -/
def State.accept (s : State) (rest : List Input) : State := { s with activity := .busy, inputs := rest }

/-! ### The entropy port -/

/-- `EntropyDraw()` issues a request (R9, R190). -/
def State.request (s : State) : State := { s with requests := s.requests + 1 }

/-- A received word goes into the collection buffer (R31). -/
def State.collect (s : State) (v : Word) (rest : List Input) : State :=
  { s with entropyBuf := s.entropyBuf ++ [v], inputs := rest }

/-- The collection buffer is discarded (R31). -/
def State.discardBuffer (s : State) : State := { s with entropyBuf := [] }

/-- What ends a BUSY core's wait: the answer to the outstanding request, or reset. -/
inductive Wake where
  | answer (a : Answer)
  | reset
deriving DecidableEq, Repr

/-- The first event that reaches a BUSY core whose outstanding request is number `req`, and the events left after it.
The command port is not ready, so a presented command stays at the port and keeps its place (R32, R216; log 4). An answer
to another request is a late one, and is ignored (R210, I12; log 5). None: nothing arrives (R190). -/
def wake (req : Nat) : List Input → Option (Wake × List Input)
  | [] => none
  | .reset :: rest => some (.reset, rest)
  | .answer n a :: rest => if n = req then some (.answer a, rest) else wake req rest
  | .command t :: rest => (wake req rest).map fun p => (p.1, .command t :: p.2)
  | .commandCutByReset t :: rest => (wake req rest).map fun p => (p.1, .commandCutByReset t :: p.2)

/-! ### Reset -/

/-- Reset, the events after it being `rest`: every piece of the core's state takes its reset value; a command in progress,
its entropy request and the words collected are gone, and there is no response (R210). What the host and the entropy source
have seen stays seen (logs 5, 6). -/
def State.enterReset (s : State) (rest : List Input) : State :=
  { State.reset with inputs := rest, responses := s.responses, requests := s.requests }

end Sys2Proof.Machine
end

