-- ==== Sys2Proof/Machine/Draw.lean ====
section
/-! DEFINITION. The draw family (`41_draw.md`): the XSH-RR permutation, LaneNext, and the meaning of NEXT. -/

namespace Sys2Proof.Machine

open Sys2Proof

/-- `rotr32(x, r)` for r from 0 to 31 (R122). -/
def rotr32 (x r : Half) : Half := (x >>> r) ||| (x <<< ((32#32 - r) &&& 31#32))

/-- `trunc_32(((s >> 18) ^ s) >> 27)` (R121). -/
def xorShifted (s : Word) : Half := (((s >>> 18) ^^^ s) >>> 27).setWidth 32

/-- `trunc_32(s >> 59)`, the top five bits of the state (R121). -/
def rotationCount (s : Word) : Half := (s >>> 59).setWidth 32

/-- Permute(s), the XSH-RR output function (R121). -/
def permute (s : Word) : Half := rotr32 (xorShifted s) (rotationCount s)

/-- LaneNext(L): the permutation of the state before the step, and the stepped lane (R123, R217). -/
def laneNext (l : Lane) : Half × Lane := (permute l.state, laneStep l)

/-- NEXT (R124): lane A's output is the high half, lane B's the low half (R43). -/
def execNext (s : State) : Host.Outcome State Fault Refusal :=
  let a := laneNext s.laneA
  let b := laneNext s.laneB
  .next ((s.setLanes a.2 b.2).respond .ok (a.1 ++ b.1))

end Sys2Proof.Machine
end

