-- ==== Sys2Proof/Machine/Jump.lean ====
section
/-! DEFINITION. The jump-ahead unit (`42_jump.md`) and the meaning of ADVANCE. -/

namespace Sys2Proof.Machine

open Sys2Proof

/-- The working registers of one lane's jump (R30, R141). They live inside one ADVANCE only (log 11). -/
structure JumpUnit where
  curMult : Word
  curPlus : Word
  accMult : Word
  accPlus : Word
  rem     : Word
deriving DecidableEq, Repr

/-- Their values when a jump of `d` steps starts (R141). -/
def JumpUnit.init (l : Lane) (d : Word) : JumpUnit where
  curMult := mult
  curPlus := l.inc
  accMult := 1#64
  accPlus := 0#64
  rem     := d

/-- One iteration of R141's loop. `curPlus` is computed from `curMult` before it is squared. -/
def JumpUnit.iterate (j : JumpUnit) : JumpUnit where
  curMult := j.curMult * j.curMult
  curPlus := (j.curMult + 1#64) * j.curPlus
  accMult := if j.rem.getLsbD 0 then j.accMult * j.curMult else j.accMult
  accPlus := if j.rem.getLsbD 0 then j.accPlus * j.curMult + j.curPlus else j.accPlus
  rem     := j.rem >>> 1

/-- `while rem != 0` (R141), at most `n` iterations; 64 are enough (R142). -/
def JumpUnit.run : Nat → JumpUnit → JumpUnit
  | 0, j => j
  | n + 1, j => if j.rem = 0#64 then j else JumpUnit.run n j.iterate

/-- The most iterations a jump takes (R142). -/
def maxIterations : Nat := 64

/-- The working registers at the loop's end. -/
def jumpUnit (l : Lane) (d : Word) : JumpUnit := JumpUnit.run maxIterations (JumpUnit.init l d)

/-- LaneJump(L, D) (R141). -/
def laneJump (l : Lane) (d : Word) : Lane :=
  let j := jumpUnit l d
  l.setState (j.accMult * l.state + j.accPlus)

/-- ADVANCE (R143): the operand beat is `u64(delta)` already, the same 64 bits (R66, R140); both lanes take it. -/
def execAdvance (delta : Word) (s : State) : Host.Outcome State Fault Refusal :=
  .next ((s.setLanes (laneJump s.laneA delta) (laneJump s.laneB delta)).respond .ok 0#64)

end Sys2Proof.Machine
end

