-- ==== Sys2Proof/Machine/Readback.lean ====
section
/-! DEFINITION. The readback family (`43_readback.md`): the meanings of READ_STATE and READ_STATUS. -/

namespace Sys2Proof.Machine

open Sys2Proof

/-- READ_STATE (R160). -/
def execReadState (sel : LaneReg) (s : State) : Host.Outcome State Fault Refusal :=
  .next (s.respond .ok (s.x sel))

/-- READ_STATUS (R162). -/
def execReadStatus (s : State) : Host.Outcome State Fault Refusal :=
  .next (s.respond .ok s.status)

end Sys2Proof.Machine
end

