-- ==== Sys2Proof/Machine/Seeding.lean ====
section
/-! DEFINITION. The seeding family (`40_seeding.md`): LaneSeed, TieBreak, GenSeed, and the meanings of SEED, SEED_BYTES
and SEED_DRAW. -/

namespace Sys2Proof.Machine

open Sys2Proof

/-- LaneSeed(L, initState, initSeq), statement by statement (R100). -/
def laneSeed (initState initSeq : Word) (l : Lane) : Lane :=
  let l := l.setState 0#64
  let l := l.setInc ((initSeq <<< 1) ||| 1#64)
  let l := laneStep l
  let l := l.setState (l.state + initState)
  laneStep l

/-- The 63-bit mask of the tie-break (R103). -/
def tieMask : Word := 0x7fffffffffffffff#64

/-- TieBreak(seq1, seq2): the sequence id lane B uses (R103). -/
def tieBreak (seq1 seq2 : Word) : Word :=
  if seq1 &&& tieMask = seq2 &&& tieMask then ~~~seq2 else seq2

/-- GenSeed(seed1, seed2, seq1, seq2) (R105). -/
def genSeed (w : SeedWords) (s : State) : State :=
  (s.setLanes (laneSeed w.seed1 w.seq1 s.laneA) (laneSeed w.seed2 (tieBreak w.seq1 w.seq2) s.laneB)).setSeeded

/-- SEED (R106). -/
def execSeed (seed1 seed2 seq1 seq2 : Word) (s : State) : Host.Outcome State Fault Refusal :=
  .next ((genSeed { seed1 := seed1, seed2 := seed2, seq1 := seq1, seq2 := seq2 } s).respond .ok 0#64)

/-- SEED_BYTES (R107). A block of another length is not a command the core accepts (R45, R70; log 10). -/
def execSeedBytes (block : List Byte) (s : State) : Host.Outcome State Fault Refusal :=
  if block.length = blockBytes then
    .next ((genSeed (SeedWords.ofBlock block) s).respond .ok 0#64)
  else
    .refused .blockLength

/-! ### SEED_DRAW (R109, R110) -/

/-- The number of words one SEED_DRAW draws (R5, R109). -/
def drawCount : Nat := 4

/-- SEED_DRAW begins: the buffer is empty, the first request goes out, and the core is BUSY (R31, R32, R109). -/
def beginDraw (s : State) : State := { s with activity := .busy, entropyBuf := [] }.request

/-- All four words are there: GenSeed of them in draw order, the buffer discarded, code OK (R109, R31). -/
def finishDraw (s : State) : State :=
  (genSeed (SeedWords.ofBuffer s.entropyBuf) s).discardBuffer.respond .ok 0#64

/-- `entropy_failed`: the words are discarded, ENT_FAIL is set, code ENTROPY (R110). -/
def failDraw (s : State) : State := s.discardBuffer.setEntFail.raise .entropy

/-- SEED_DRAW with a request outstanding and `n` more to make after it: every answer that has arrived is taken, one request
after the other; where none has, the core stays BUSY (R109, R190; log 8). A reset is left for the step to see. -/
def awaitWords (n : Nat) (s : State) : State :=
  match wake s.requests s.inputs with
  | some (.answer (.word v), rest) =>
    match n with
    | 0 => finishDraw (s.collect v rest)
    | m + 1 => awaitWords m (s.collect v rest).request
  | some (.answer .fail, rest) => failDraw { s with inputs := rest }
  | some (.reset, _) => s
  | none => s
termination_by structural n

/-- A BUSY core goes on with its SEED_DRAW (R109). -/
def resumeDraw (s : State) : State := awaitWords (drawCount - 1 - s.entropyBuf.length) s

/-- SEED_DRAW (R109, R110). -/
def execSeedDraw (s : State) : Host.Outcome State Fault Refusal := .next (awaitWords (drawCount - 1) (beginDraw s))

end Sys2Proof.Machine
end

