-- ==== Sys2Proof/Machine/Dispatch.lean ====
section
/-! DEFINITION. One arm per command. -/

namespace Sys2Proof.Machine

open Sys2Proof

def exec (i : Instr) (s : State) : Host.Outcome State Fault Refusal :=
  match i with
  | .seed seed1 seed2 seq1 seq2 => Sys2Proof.Machine.execSeed seed1 seed2 seq1 seq2 s
  | .seedBytes block => Sys2Proof.Machine.execSeedBytes block s
  | .seedDraw => Sys2Proof.Machine.execSeedDraw s
  | .next => Sys2Proof.Machine.execNext s
  | .advance delta => Sys2Proof.Machine.execAdvance delta s
  | .readState sel => Sys2Proof.Machine.execReadState sel s
  | .readStatus => Sys2Proof.Machine.execReadStatus s

end Sys2Proof.Machine
end

