-- ==== Sys2Proof/Machine/Fetch.lean ====
section
/-! DEFINITION. What the core does with the event at its ports (R32, R60, R68 to R70, R182, R190, R210): the part of a
step around `exec`. -/

namespace Sys2Proof.Machine

open Sys2Proof

/-- What a step does. -/
inductive Event where
  /-- A legal command, accepted: `exec` runs it in this state. -/
  | run (i : Instr) (s : State)
  /-- No command is run: this is the next state. -/
  | settle (s : State)
  /-- The transaction has no meaning. -/
  | refuse (r : Refusal)
deriving DecidableEq, Repr

/-- An IDLE core takes the transaction at its port. An illegal word is answered ILLEGAL and changes nothing, its beats
unread (R182); a legal word with the wrong beat count is refused (R70, I7). -/
def takeCommand (t : Transaction) (rest : List Input) (s : State) : Event :=
  match decode t with
  | .ok i => .run i (s.accept rest)
  | .error (.illegal _) => .settle ((s.accept rest).raise .illegal)
  | .error .beatCount => .refuse .beatCount

/-- The event that reaches an IDLE core. With none, the core waits (R211; log 7). An entropy answer finds no request
outstanding and is ignored (R210, I12). A command that reset cuts short leaves only the reset (R210, R185; log 9). -/
def idleEvent (s : State) : Event :=
  match s.inputs with
  | [] => .settle s
  | .command t :: rest => takeCommand t rest s
  | .commandCutByReset _ :: rest => .settle (s.enterReset rest)
  | .answer _ _ :: rest => .settle { s with inputs := rest }
  | .reset :: rest => .settle (s.enterReset rest)

/-- The event that reaches a BUSY core: reset, which takes precedence (R185), or the answers its SEED_DRAW waits for
(R190). With neither it waits, for ever if need be (R216, I4; log 7). -/
def busyEvent (s : State) : Event :=
  match wake s.requests s.inputs with
  | some (.reset, rest) => .settle (s.enterReset rest)
  | some (.answer _, _) => .settle (resumeDraw s)
  | none => .settle s

/-- The event that reaches the core. -/
def nextEvent (s : State) : Event :=
  match s.activity with
  | .idle => idleEvent s
  | .busy => busyEvent s

/-- The transaction presented to an IDLE core as the very next event (log 14). -/
def State.present (s : State) (t : Transaction) : State :=
  { s with activity := .idle, entropyBuf := [], inputs := .command t :: s.inputs }

end Sys2Proof.Machine
end

