-- ==== Sys2Proof/Machine/Step.lean ====
section
/-! DEFINITION. One step of the core. -/

namespace Sys2Proof.Machine

open Sys2Proof

/-- One step: a command runs whole (R10), or the core deals with another event, or waits. -/
def step (s : State) : Host.Outcome State Fault Refusal :=
  match nextEvent s with
  | .run i s' => exec i s'
  | .settle s' => .next s'
  | .refuse r => .refused r

/-- `s` with the opcode-table word presented to the core, so that the next step runs it (log 14). -/
def State.withFetchWord (s : State) (nbits w : Nat) : State := s.present (transactionOfNat nbits w)

end Sys2Proof.Machine
end

