-- ==== Sys2Proof/Machine/Assembler.lean ====
section
/-! DEFINITION. The command syntax (R71) and the pseudo-commands (R72): from a line of characters to the commands it
stands for. This is the host's side of the port: no step of the core reads it. Details of the syntax that R71 leaves open
are log 17. -/

namespace Sys2Proof.Machine

open Sys2Proof

/-! ### Pseudo-commands (R72) -/

/-- The pseudo-commands. SEED_FROM_GEN carries the four draws the host took from its own generator. -/
inductive Pseudo where
  | jumpback (n : Int)
  | draw (k : Nat)
  | seedFromGen (d0 d1 d2 d3 : Word)
  | skip (n : Int)
deriving DecidableEq, Repr

/-- The real commands a pseudo-command expands to (R72). -/
def Pseudo.expand : Pseudo → List Instr
  | .jumpback n => [.advance (u64 (-n))]
  | .draw k => List.replicate k .next
  | .seedFromGen d0 d1 d2 d3 => [.seed d0 d1 d2 d3]
  | .skip n => [.advance (u64 n)]

/-! ### Numbers -/

/-- A decimal digit's value. -/
def decDigit (c : Char) : Option Nat :=
  if '0' ≤ c ∧ c ≤ '9' then some (c.toNat - '0'.toNat) else none

/-- A hexadecimal digit's value. -/
def hexDigit (c : Char) : Option Nat :=
  if '0' ≤ c ∧ c ≤ '9' then some (c.toNat - '0'.toNat)
  else if 'a' ≤ c ∧ c ≤ 'f' then some (c.toNat - 'a'.toNat + 10)
  else if 'A' ≤ c ∧ c ≤ 'F' then some (c.toNat - 'A'.toNat + 10)
  else none

/-- The value of a digit string, most significant digit first, continuing from `acc`. -/
def digitsFrom (base : Nat) (digit : Char → Option Nat) (acc : Nat) : List Char → Option Nat
  | [] => some acc
  | c :: cs =>
    match digit c with
    | some d => digitsFrom base digit (acc * base + d) cs
    | none => none

/-- A number: decimal, or `0x` hexadecimal (R71). -/
def parseNumber : List Char → Option Nat
  | [] => none
  | ['0', 'x'] => none
  | '0' :: 'x' :: ds => digitsFrom 16 hexDigit 0 ds
  | ds => digitsFrom 10 decDigit 0 ds

/-- A SEED operand: a number taken modulo 2^64 (R71). -/
def parseWord (cs : List Char) : Option Word := (parseNumber cs).map (BitVec.ofNat 64)

/-- A step count from -2^63 to 2^64-1, a leading `-` before a decimal number (R71). -/
def parseDelta : List Char → Option Int
  | [] => none
  | '-' :: ds =>
    if ds = [] then none
    else (digitsFrom 10 decDigit 0 ds).bind fun n => if n ≤ 2 ^ 63 then some (-(n : Int)) else none
  | ds => (parseNumber ds).bind fun n => if n < 2 ^ 64 then some (n : Int) else none

/-- A byte, 0..255 (R71). -/
def parseByte (cs : List Char) : Option Byte :=
  (parseNumber cs).bind fun n => if n < 256 then some (BitVec.ofNat 8 n) else none

/-- The bytes of a string of hexadecimal digits, two digits a byte, the first two being `b0` (R71). -/
def parseHexBytes : List Char → Option (List Byte)
  | [] => some []
  | [_] => none
  | a :: b :: rest =>
    match hexDigit a, hexDigit b, parseHexBytes rest with
    | some h, some l, some bs => some (BitVec.ofNat 8 (h * 16 + l) :: bs)
    | _, _, _ => none

/-- A SEED_BYTES operand: one `0x` string of 64 digits, or 32 byte values (R71). -/
def parseBlock : List (List Char) → Option (List Byte)
  | ['0' :: 'x' :: ds] => (parseHexBytes ds).bind fun bs => if bs.length = 32 then some bs else none
  | ts => (ts.mapM parseByte).bind fun bs => if bs.length = 32 then some bs else none

/-- A READ_STATE selector, by name or by number (R71). -/
def parseSel (cs : List Char) : Option LaneReg :=
  if cs = "STATE_A".toList ∨ cs = "0".toList then some .stateA
  else if cs = "INC_A".toList ∨ cs = "1".toList then some .incA
  else if cs = "STATE_B".toList ∨ cs = "2".toList then some .stateB
  else if cs = "INC_B".toList ∨ cs = "3".toList then some .incB
  else none

/-! ### Lines -/

/-- A token is kept if it has a character. -/
def consToken (t : List Char) (ts : List (List Char)) : List (List Char) := if t = [] then ts else t :: ts

/-- The tokens of a line, `cur` being the one read so far: blanks separate, a comma is a token of its own, `;` starts a
comment (R71). -/
def tokensFrom (cur : List Char) : List Char → List (List Char)
  | [] => consToken cur []
  | c :: cs =>
    if c = ';' then consToken cur []
    else if c = ' ' ∨ c = '\t' then consToken cur (tokensFrom [] cs)
    else if c = ',' then consToken cur ([','] :: tokensFrom [] cs)
    else tokensFrom (cur ++ [c]) cs

/-- The commands of a line's tokens; none where the line is not of R71's or R72's form. SEED_FROM_GEN is not a line of
numbers (its operand is a generator of the host's), so it has no text here. -/
def parseTokens : List (List Char) → Option (List Instr)
  | [] => some []
  | [m] =>
    if m = "SEED_DRAW".toList then some [.seedDraw]
    else if m = "NEXT".toList then some [.next]
    else if m = "READ_STATUS".toList then some [.readStatus]
    else none
  | m :: args =>
    if m = "SEED".toList then
      match args with
      | [a, [','], b, [','], c, [','], d] =>
        match parseWord a, parseWord b, parseWord c, parseWord d with
        | some a, some b, some c, some d => some [.seed a b c d]
        | _, _, _, _ => none
      | _ => none
    else if m = "SEED_BYTES".toList then (parseBlock args).map fun bs => [.seedBytes bs]
    else
      match args with
      | [a] =>
        if m = "ADVANCE".toList then (parseDelta a).map fun d => [.advance (u64 d)]
        else if m = "READ_STATE".toList then (parseSel a).map fun r => [.readState r]
        else if m = "JUMPBACK".toList then (parseDelta a).map fun d => (Pseudo.jumpback d).expand
        else if m = "SKIP".toList then (parseDelta a).map fun d => (Pseudo.skip d).expand
        else if m = "DRAW".toList then (parseNumber a).map fun k => (Pseudo.draw k).expand
        else none
      | _ => none

/-- The commands of one line (R71, R72). -/
def parseLine (line : List Char) : Option (List Instr) := parseTokens (tokensFrom [] line)

/-- The events of a host that issues these commands (R60). -/
def program (is : List Instr) : List Input := is.map fun i => .command (encode i)

end Sys2Proof.Machine
end

