-- ==== Sys2Proof/Safety.lean ====
section
/-! DEFINITION. The terms in which claims speak of a safe run: the invariants of the core (R22, R23, R31, R32), and
what many steps, many commands and many answers do. -/

namespace Sys2Proof.Machine

open Sys2Proof

/-! ### Invariants -/

/-- The distinct-stream invariant (R23, R28): once seeded, the two lanes have different increments. -/
abbrev State.DistinctStreams (s : State) : Prop := s.seeded = true → s.x .incA ≠ s.x .incB

/-- The entropy port's invariant (R31, R32, R190): an IDLE core holds no entropy word; a BUSY one holds at most three, and
has issued one request for each and one more. -/
abbrev State.PortOrderly (s : State) : Prop :=
  (s.activity = .idle → s.entropyBuf = []) ∧
  (s.activity = .busy → s.entropyBuf.length < drawCount ∧ s.entropyBuf.length < s.requests)

/-! ### Many steps -/

/-- `n` applications of LaneStep (R144). -/
def laneSteps : Nat → Lane → Lane
  | 0, l => l
  | n + 1, l => laneSteps n (laneStep l)

/-- What `n` NEXT commands leave (R144). -/
def afterNexts : Nat → State → State
  | 0, s => s
  | n + 1, s =>
    match exec .next s with
    | .next t => afterNexts n t
    | .fault _ => s
    | .refused _ => s

/-- `n` iterations of the jump loop, its test left out: the fixed-count unit (R142). -/
def JumpUnit.iterations : Nat → JumpUnit → JumpUnit
  | 0, j => j
  | n + 1, j => JumpUnit.iterations n j.iterate

/-- `bitlen(D)` (R142). -/
def bitlen (d : Word) : Nat := if d = 0#64 then 0 else Nat.log2 d.toNat + 1

/-! ### The ports -/

/-- The commands still to be presented, in order. -/
def commandsOf : List Input → List Transaction
  | [] => []
  | .command t :: rest => t :: commandsOf rest
  | .commandCutByReset t :: rest => t :: commandsOf rest
  | .answer _ _ :: rest => commandsOf rest
  | .reset :: rest => commandsOf rest

/-- The words `ws` answer the requests from number `req` on, in this order, and leave `out` (R190). -/
def WordsArrive (req : Nat) (ins : List Input) : List Word → List Input → Prop
  | [], out => ins = out
  | w :: ws, out => ∃ mid, wake req ins = some (.answer (.word w), mid) ∧ WordsArrive (req + 1) mid ws out

/-! ### Seeding, as a formula -/

/-- The lane LaneSeed(L, initState, initSeq) leaves, in closed form (R101, R102). -/
def seededLane (initState initSeq : Word) : Lane :=
  let inc := (initSeq <<< 1) ||| 1#64
  { state := 0x5851f42d4c957f2d#64 * (inc + initState) + inc, incHi := initSeq.setWidth 63 }

/-- The sequence id of lane B: the complement of seq2 where the two ids agree in bits 62..0 (R103). -/
def laneBSeq (seq1 seq2 : Word) : Word :=
  if seq1.setWidth 63 = seq2.setWidth 63 then ~~~seq2 else seq2

/-! ### What a step is about -/

/-- The next event that reaches the core is reset, or a command that reset cuts short, and `rest` are the events after it
(R210; log 9). -/
def State.ResetComes (s : State) (rest : List Input) : Prop :=
  (s.activity = .busy ∧ wake s.requests s.inputs = some (.reset, rest)) ∨
  (s.activity = .idle ∧ (s.inputs = .reset :: rest ∨ ∃ t, s.inputs = .commandCutByReset t :: rest))

/-- The command of the next step: the one an IDLE core takes from its port, or the SEED_DRAW a BUSY one goes on with (R32,
R190). -/
def State.InProgress (s : State) (i : Instr) : Prop :=
  (s.activity = .idle ∧ ∃ t rest, s.inputs = .command t :: rest ∧ decode t = .ok i) ∨
  (s.activity = .busy ∧ i = .seedDraw)

/-- The three seeding commands (R21). -/
def Instr.Seeding (i : Instr) : Prop := i.command = .seed ∨ i.command = .seedBytes ∨ i.command = .seedDraw

/-- The four seed words of the command `i`, run in `s`: the operand beats of SEED and SEED_BYTES (R65, R66), the words that
answer SEED_DRAW's requests (R109; log 5). -/
def SeedsWith (i : Instr) (s : State) (a b c d : Word) : Prop :=
  ((i.command = .seed ∨ i.command = .seedBytes) ∧ i.beats = [a, b, c, d]) ∨
  (i = .seedDraw ∧ ∃ rest, WordsArrive (s.requests + 1) s.inputs [a, b, c, d] rest)

/-- The four seed words of the next step, where it completes a seeding command: those of the command an IDLE core takes, or
the words a BUSY core has followed by those that arrive (R106, R107, R109). -/
def State.StepSeedsWith (s : State) (a b c d : Word) : Prop :=
  (s.activity = .idle ∧ ∃ t rest i, s.inputs = .command t :: rest ∧ decode t = .ok i ∧
    SeedsWith i (s.accept rest) a b c d) ∨
  (s.activity = .busy ∧ ∃ ws rest, ws ≠ [] ∧ s.entropyBuf ++ ws = [a, b, c, d] ∧
    WordsArrive s.requests s.inputs ws rest)

/-- Both lanes stand the same number of steps after the seeding with these words (R219). -/
def State.InStepSince (s : State) (a b c d : Word) : Prop :=
  ∃ n, s.laneA = laneSteps n (seededLane a c) ∧ s.laneB = laneSteps n (seededLane b (laneBSeq c d))

end Sys2Proof.Machine
end

