-- ==== Sys2Proof/Certificates/Slice0/Obligations.lean ====
section
/-! DEFINITION. The statements about the PCG64 core. Each docstring names the rule it formalises. -/

open Sys2Proof Sys2Proof.Machine

/-! ### Encoding and the step -/

/-- R10, R25, R32, R60: an IDLE core that finds a transaction at its port runs the decoded command, whole, in the state in
which it is BUSY with it and has taken it from the port. -/
def Obligations.StepRunsDecodedCommand : Prop :=
  ∀ (s : State) (t : Transaction) (rest : List Input) (i : Instr),
    s.activity = .idle → s.inputs = .command t :: rest → decode t = .ok i →
    step s = exec i { s with activity := .busy, inputs := rest }

/-- R67, R69 and V-DEC of 95_test_vectors.md: words written out from the opcode map. -/
def Obligations.OpcodeMapWordsDecode : Prop :=
  decodeWord 0x00000001#32 = .ok .seed ∧ decodeWord 0x00000002#32 = .ok .seedBytes ∧
  decodeWord 0x00000003#32 = .ok .seedDraw ∧ decodeWord 0x00000010#32 = .ok .next ∧
  decodeWord 0x00000020#32 = .ok .advance ∧ decodeWord 0x00000130#32 = .ok (.readState .incA) ∧
  decodeWord 0x00000230#32 = .ok (.readState .stateB) ∧ decodeWord 0x00000031#32 = .ok .readStatus ∧
  decodeWord 0x00000000#32 = .error .op ∧ decodeWord 0x00000110#32 = .error .sel ∧
  decodeWord 0x80000010#32 = .error .rsv ∧ decodeWord 0x00000430#32 = .error .rsv

/-- R67: the ten legal words, the command of each and its beat count; no other word is legal. -/
def Obligations.LegalWordsAreExactlyTen : Prop :=
  ∀ (w : BitVec 32) (c : Command),
    decodeWord w = .ok c ↔
      (w, c, c.beatCount) ∈
        [(0x00000001#32, Command.seed, 4), (0x00000002#32, Command.seedBytes, 4),
         (0x00000003#32, Command.seedDraw, 0), (0x00000010#32, Command.next, 0),
         (0x00000020#32, Command.advance, 1), (0x00000030#32, Command.readState .stateA, 0),
         (0x00000130#32, Command.readState .incA, 0), (0x00000230#32, Command.readState .stateB, 0),
         (0x00000330#32, Command.readState .incB, 0), (0x00000031#32, Command.readStatus, 0)]

/-- R69, R182: a word is illegal exactly on the three grounds; an illegal word is answered ILLEGAL with result 0, whatever
beats come with it, and nothing else changes. -/
def Obligations.IllegalWordChangesNothing : Prop :=
  ∀ (t : Transaction),
    let illegal : Prop :=
      t.word.extractLsb' 10 22 ≠ 0#22 ∨
      t.word.extractLsb' 0 8 ∉ [0x01#8, 0x02#8, 0x03#8, 0x10#8, 0x20#8, 0x30#8, 0x31#8] ∨
      (t.word.extractLsb' 8 2 ≠ 0#2 ∧ t.word.extractLsb' 0 8 ≠ 0x30#8)
    (illegal ↔ ∃ why, decodeWord t.word = .error why) ∧
    ∀ (s : State) (rest : List Input), illegal → s.activity = .idle → s.inputs = .command t :: rest →
      step s = .next { s with inputs := rest, responses := { code := .illegal, result := 0#64 } :: s.responses }

/-- R65, R70, I7: a legal word makes a command exactly when its beat count is K(OP); otherwise the step refuses. The refusal
is the one R70 asks of a model (log 10). -/
def Obligations.WrongBeatCountIsRefused : Prop :=
  ∀ (t : Transaction) (c : Command), decodeWord t.word = .ok c →
    ((∃ i, decode t = .ok i) ↔ t.beats.length = c.beatCount) ∧
    ∀ (s : State) (rest : List Input), s.activity = .idle → s.inputs = .command t :: rest →
      t.beats.length ≠ c.beatCount → step s = .refused .beatCount

/-- R61, R65 to R68: decoding an encoded well-formed command gives it back, with every operand. -/
def Obligations.DecodeOfEncode : Prop :=
  ∀ i : Instr, i.wf = true → decode (encode i) = .ok i

/-- R61, R65 to R68: whatever decodes is well formed, and only its own encoding decodes to it. -/
def Obligations.EncodeOfDecode : Prop :=
  ∀ (t : Transaction) (i : Instr), decode t = .ok i → i.wf = true ∧ encode i = t

/-! ### Seeding -/

/-- R102, R103, R105, R106: SEED, in closed form; everything not named stays. -/
def Obligations.SeedSetsBothLanes : Prop :=
  ∀ (seed1 seed2 seq1 seq2 : Word) (s : State),
    encode (.seed seed1 seed2 seq1 seq2) = { word := 0x00000001#32, beats := [seed1, seed2, seq1, seq2] } ∧
    exec (.seed seed1 seed2 seq1 seq2) s = .next
      { s with
        laneA := seededLane seed1 seq1
        laneB := seededLane seed2 (laneBSeq seq1 seq2)
        seeded := true
        activity := .idle
        responses := { code := .ok, result := 0#64 } :: s.responses }

/-- R101: bits 62..0 of the sequence id are bits 63..1 of the increment, and bit 63 has no effect at all. -/
def Obligations.SequenceBit63IsDiscarded : Prop :=
  ∀ (initState initSeq initSeq' : Word) (l : Lane),
    (laneSeed initState initSeq l).inc = initSeq.extractLsb' 0 63 ++ 1#1 ∧
    (initSeq.extractLsb' 0 63 = initSeq'.extractLsb' 0 63 →
      laneSeed initState initSeq l = laneSeed initState initSeq' l)

/-- R104: GenSeed always leaves INC_A and INC_B different, and so do the commands that complete through it. -/
def Obligations.SeedingMakesIncrementsDistinct : Prop :=
  (∀ (w : SeedWords) (s : State), (genSeed w s).x .incA ≠ (genSeed w s).x .incB) ∧
  (∀ (i : Instr) (s t : State), ((∃ a b c d, i = .seed a b c d) ∨ (∃ block, i = .seedBytes block)) →
    exec i s = .next t → t.x .incA ≠ t.x .incB) ∧
  (∀ (s t : State) (r : Word), exec .seedDraw s = .next t →
    t.responses = { code := .ok, result := r } :: s.responses → t.x .incA ≠ t.x .incB)

/-- R42, R107: SEED_BYTES of a 32-byte block is SEED of the block's four little-endian words, in buffer order. -/
def Obligations.SeedBytesReadsLittleEndianWords : Prop :=
  ∀ (block : List Byte) (s : State), block.length = 32 →
    let w : Nat → Word := fun k =>
      BitVec.ofNat 64 (((block.drop (8 * k)).take 8).foldr (fun b acc => acc * 256 + b.toNat) 0)
    encode (.seedBytes block) = { word := 0x00000002#32, beats := [w 0, w 1, w 2, w 3] } ∧
    ∃ t, exec (.seedBytes block) s = .next t ∧ exec (.seed (w 0) (w 1) (w 2) (w 3)) s = .next t

/-- R108: SEED_BYTES of the little-endian bytes of a, b, c, d leaves what SEED a, b, c, d leaves. -/
def Obligations.SeedBytesAgreesWithSeed : Prop :=
  ∀ (a b c d : Word) (s : State),
    let bytes : Word → List Byte := fun v => (List.range 8).map fun j => BitVec.ofNat 8 (v.toNat / 256 ^ j)
    exec (.seedBytes (bytes a ++ bytes b ++ bytes c ++ bytes d)) s = exec (.seed a b c d) s

/-- R45, R70: a block of another length is not a command the core accepts. The refusal's name is the model's (log 10). -/
def Obligations.WrongBlockLengthIsRefused : Prop :=
  ∀ (block : List Byte) (s : State), block.length ≠ 32 → exec (.seedBytes block) s = .refused .blockLength

/-- R109: with four words answering its four requests, SEED_DRAW seeds the core with them in the order they arrive, and makes
exactly four requests. That answers carry request numbers and that one step takes them all is the model's choice (logs 5, 8).
-/
def Obligations.SeedDrawUsesFourWords : Prop :=
  ∀ (a b c d : Word) (s : State) (rest : List Input),
    WordsArrive (s.requests + 1) s.inputs [a, b, c, d] rest →
    exec .seedDraw s = .next
      { s with
        laneA := seededLane a c
        laneB := seededLane b (laneBSeq c d)
        seeded := true
        activity := .idle
        entropyBuf := []
        inputs := rest
        responses := { code := .ok, result := 0#64 } :: s.responses
        requests := s.requests + 4 }

/-- R110, R183: where request k (0 <= k <= 3) is answered Fail, SEED_DRAW changes ENT_FAIL alone, discards the words it has,
answers ENTROPY and makes no further request; the same where it had to wait before (a BUSY core's step). That answers carry
request numbers and that one step takes them all is the model's choice (logs 5, 8). -/
def Obligations.SeedDrawFailureSetsEntFailOnly : Prop :=
  (∀ (ws : List Word) (s : State) (mid rest : List Input),
    ws.length ≤ 3 → WordsArrive (s.requests + 1) s.inputs ws mid →
    wake (s.requests + 1 + ws.length) mid = some (.answer .fail, rest) →
    exec .seedDraw s = .next
      { s with
        entFail := true
        activity := .idle
        entropyBuf := []
        inputs := rest
        responses := { code := .entropy, result := 0#64 } :: s.responses
        requests := s.requests + 1 + ws.length }) ∧
  (∀ (ws : List Word) (s : State) (mid rest : List Input),
    s.activity = .busy → s.entropyBuf.length + ws.length ≤ 3 → WordsArrive s.requests s.inputs ws mid →
    wake (s.requests + ws.length) mid = some (.answer .fail, rest) →
    step s = .next
      { s with
        entFail := true
        activity := .idle
        entropyBuf := []
        inputs := rest
        responses := { code := .entropy, result := 0#64 } :: s.responses
        requests := s.requests + ws.length })

/-- R109, R190: where an answer has not come (nothing arrives, or reset does), SEED_DRAW leaves the core BUSY with the words
it has and one request outstanding; lanes, STATUS and responses are as before; so does a BUSY core that some words reach. That
answers carry request numbers and that one step takes them all is the model's choice (logs 5, 8). -/
def Obligations.SeedDrawWaitsForAnswers : Prop :=
  (∀ (ws : List Word) (s : State) (mid : List Input),
    ws.length ≤ 3 → WordsArrive (s.requests + 1) s.inputs ws mid →
    (∀ a rest, wake (s.requests + 1 + ws.length) mid ≠ some (.answer a, rest)) →
    exec .seedDraw s = .next
      { s with
        activity := .busy
        entropyBuf := ws
        inputs := mid
        requests := s.requests + 1 + ws.length }) ∧
  (∀ (ws : List Word) (s : State) (mid : List Input),
    s.activity = .busy → s.entropyBuf.length + ws.length ≤ 3 → ws ≠ [] → WordsArrive s.requests s.inputs ws mid →
    (∀ a rest, wake (s.requests + ws.length) mid ≠ some (.answer a, rest)) →
    step s = .next
      { s with
        entropyBuf := s.entropyBuf ++ ws
        inputs := mid
        requests := s.requests + ws.length })

/-- R190, R216, I4: a BUSY core that nothing reaches stays as it is. That waiting is a step is log 7. -/
def Obligations.BusyCoreWaitsForever : Prop :=
  ∀ s : State, s.activity = .busy → wake s.requests s.inputs = none → step s = .next s

/-- R109, R190: a SEED_DRAW that had to wait ends, when the words it lacks arrive, as one that did not. That answers carry
request numbers and that one step takes them all is the model's choice (logs 5, 8). -/
def Obligations.WaitingSeedDrawCompletes : Prop :=
  ∀ (a b c d : Word) (s : State) (ws : List Word) (rest : List Input),
    s.activity = .busy → s.entropyBuf ++ ws = [a, b, c, d] → ws ≠ [] →
    WordsArrive s.requests s.inputs ws rest →
    step s = .next
      { s with
        laneA := seededLane a c
        laneB := seededLane b (laneBSeq c d)
        seeded := true
        activity := .idle
        entropyBuf := []
        inputs := rest
        responses := { code := .ok, result := 0#64 } :: s.responses
        requests := s.requests + (ws.length - 1) }

/-- R112: a seeding command that completes (a SEED_DRAW that had to wait too) leaves lanes that depend on its four seed words
alone. That answers carry request numbers and that one step takes them all is the model's choice (logs 5, 8). -/
def Obligations.ReseedingIsHistoryFree : Prop :=
  (∀ (i : Instr) (s s' t t' : State), ((∃ a b c d, i = .seed a b c d) ∨ (∃ block, i = .seedBytes block)) →
    exec i s = .next t → exec i s' = .next t' → t.laneA = t'.laneA ∧ t.laneB = t'.laneB) ∧
  (∀ (ws : List Word) (s s' t t' : State) (rest rest' : List Input), ws.length = 4 →
    WordsArrive (s.requests + 1) s.inputs ws rest → WordsArrive (s'.requests + 1) s'.inputs ws rest' →
    exec .seedDraw s = .next t → exec .seedDraw s' = .next t' → t.laneA = t'.laneA ∧ t.laneB = t'.laneB) ∧
  (∀ (a b c d : Word) (s s' t t' : State) (ws ws' : List Word) (rest rest' : List Input),
    s.activity = .busy → s.entropyBuf ++ ws = [a, b, c, d] → ws ≠ [] → WordsArrive s.requests s.inputs ws rest →
    s'.activity = .busy → s'.entropyBuf ++ ws' = [a, b, c, d] → ws' ≠ [] →
    WordsArrive s'.requests s'.inputs ws' rest' →
    step s = .next t → step s' = .next t' → t.laneA = t'.laneA ∧ t.laneB = t'.laneB)

/-! ### The draw -/

/-- R120, R121, R123, R124, R43: NEXT answers lane A's output above lane B's, each read from the state before the step, and
steps both lanes once; everything not named stays. -/
def Obligations.NextDrawsAndStepsBothLanes : Prop :=
  ∀ s : State,
    let out : Word → Half := fun v =>
      ((v ^^^ (v >>> 18)).extractLsb' 27 32).rotateRight (v.extractLsb' 59 5).toNat
    let stepped : Lane → Lane := fun l =>
      { l with state := 0x5851f42d4c957f2d#64 * l.state + (l.incHi ++ 1#1) }
    encode .next = { word := 0x00000010#32, beats := [] } ∧
    exec .next s = .next
      { s with
        laneA := stepped s.laneA
        laneB := stepped s.laneB
        activity := .idle
        responses := { code := .ok, result := out s.laneA.state ++ out s.laneB.state } :: s.responses }

/-- R122: `rotr32` rotates right, by 0 as well. -/
def Obligations.Rotr32IsRotateRight : Prop :=
  ∀ x r : Half, r.toNat ≤ 31 → rotr32 x r = x.rotateRight r.toNat

/-- R127: which state bits the output reads, and that bits 26..0 do not enter it. -/
def Obligations.OutputReadsTheUpperStateBits : Prop :=
  (∀ (s : Word) (i : Nat), i ≤ 18 → (xorShifted s).getLsbD i = ((s.getLsbD (i + 27)) ^^ (s.getLsbD (i + 45)))) ∧
  (∀ (s : Word) (i : Nat), 19 ≤ i → i ≤ 31 → (xorShifted s).getLsbD i = s.getLsbD (i + 27)) ∧
  (∀ s : Word, rotationCount s = (s.extractLsb' 59 5).setWidth 32) ∧
  (∀ s s' : Word, s.extractLsb' 27 37 = s'.extractLsb' 27 37 → permute s = permute s') ∧
  permute 1#64 = 0#32 ∧ permute 0x0000000008000000#64 = 0x00000001#32 ∧
  permute 0x07ffffffffffffff#64 = 0xffffc000#32

/-- R125: each lane's half of a draw, and its next state, come from that lane alone. -/
def Obligations.LanesAreIndependent : Prop :=
  ∀ (s s' t t' : State) (r r' : Word), exec .next s = .next t → exec .next s' = .next t' →
    t.responses = { code := .ok, result := r } :: s.responses →
    t'.responses = { code := .ok, result := r' } :: s'.responses →
    (s.laneA.state = s'.laneA.state → r.extractLsb' 32 32 = r'.extractLsb' 32 32) ∧
    (s.laneB.state = s'.laneB.state → r.extractLsb' 0 32 = r'.extractLsb' 0 32) ∧
    (s.laneA = s'.laneA → t.laneA = t'.laneA) ∧ (s.laneB = s'.laneB → t.laneB = t'.laneB)

/-- R126: every lane, from every state and with every odd increment, has period exactly 2^64, and so the pair of lanes
repeats after 2^64 NEXT commands. -/
def Obligations.LanePeriodIsTwoToThe64 : Prop :=
  (∀ l : Lane, laneSteps (2 ^ 64) l = l) ∧
  (∀ (l : Lane) (n : Nat), 0 < n → n < 2 ^ 64 → laneSteps n l ≠ l) ∧
  (∀ s : State, (afterNexts (2 ^ 64) s).laneA = s.laneA ∧ (afterNexts (2 ^ 64) s).laneB = s.laneB)

/-- R217: READ_STATE after a NEXT shows the states that the next NEXT permutes. -/
def Obligations.DrawLagsTheVisibleState : Prop :=
  ∀ s t : State, exec .next s = .next t →
    ∃ u a b : State,
      exec (.readState .stateA) t = .next a ∧ exec (.readState .stateB) t = .next b ∧ exec .next t = .next u ∧
      ∃ va vb : Word,
        a.responses = { code := .ok, result := va } :: t.responses ∧
        b.responses = { code := .ok, result := vb } :: t.responses ∧
        u.responses = { code := .ok, result := permute va ++ permute vb } :: t.responses

/-! ### The jump unit -/

/-- R140: `u64(-N)` is 2^64 - N, and counts that agree modulo 2^64 are the same operand. -/
def Obligations.JumpCountsWrap : Prop :=
  (∀ n : Nat, 1 ≤ n → n ≤ 2 ^ 63 → (u64 (-(n : Int))).toNat = 2 ^ 64 - n) ∧
  (∀ d e : Int, d % 2 ^ 64 = e % 2 ^ 64 → u64 d = u64 e)

/-- R143, R144: ADVANCE steps both lanes u64(delta) times; everything not named stays. -/
def Obligations.AdvanceStepsBothLanes : Prop :=
  ∀ (delta : Word) (s : State),
    encode (.advance delta) = { word := 0x00000020#32, beats := [delta] } ∧
    exec (.advance delta) s = .next
      { s with
        laneA := laneSteps delta.toNat s.laneA
        laneB := laneSteps delta.toNat s.laneB
        activity := .idle
        responses := { code := .ok, result := 0#64 } :: s.responses }

/-- R144: ADVANCE n leaves the lanes that n NEXT commands leave, and LaneJump is n applications of LaneStep. -/
def Obligations.AdvanceEqualsRepeatedNext : Prop :=
  (∀ (l : Lane) (n : Nat), n < 2 ^ 64 → laneJump l (BitVec.ofNat 64 n) = laneSteps n l) ∧
  (∀ (s t : State) (n : Nat), n < 2 ^ 64 → exec (.advance (BitVec.ofNat 64 n)) s = .next t →
    t.laneA = (afterNexts n s).laneA ∧ t.laneB = (afterNexts n s).laneB)

/-- R145: two jumps are one jump of the sum. -/
def Obligations.JumpsAdd : Prop :=
  ∀ (a b : Word) (s t u : State), exec (.advance a) s = .next t → exec (.advance b) t = .next u →
    ∃ v, exec (.advance (a + b)) s = .next v ∧ v.laneA = u.laneA ∧ v.laneB = u.laneB

/-- R146: a jump is undone by its negative, two jumps of 2^63 are the identity, and so are a jump of 0 and 2^64 steps. -/
def Obligations.JumpsInvert : Prop :=
  (∀ (n : Word) (s t u : State), exec (.advance n) s = .next t → exec (.advance (-n)) t = .next u →
    u.laneA = s.laneA ∧ u.laneB = s.laneB) ∧
  (∀ s t u : State, exec (.advance 0x8000000000000000#64) s = .next t →
    exec (.advance 0x8000000000000000#64) t = .next u → u.laneA = s.laneA ∧ u.laneB = s.laneB) ∧
  (∀ s t : State, exec (.advance 0#64) s = .next t → t.laneA = s.laneA ∧ t.laneB = s.laneB) ∧
  (∀ l : Lane, laneSteps (2 ^ 64) l = l)

/-- R147: every lane's jump by D has the same cur_mult and acc_mult, a power of MULT; cur_plus and acc_plus depend on the lane's
increment alone, and acc_plus is the increment times the geometric sum. -/
def Obligations.JumpRegistersInClosedForm : Prop :=
  ∀ (l l' : Lane) (d : Word),
    (jumpUnit l d).curMult = (jumpUnit l' d).curMult ∧
    (jumpUnit l d).accMult = (jumpUnit l' d).accMult ∧
    (l.inc = l'.inc →
      (jumpUnit l d).curPlus = (jumpUnit l' d).curPlus ∧ (jumpUnit l d).accPlus = (jumpUnit l' d).accPlus) ∧
    (jumpUnit l d).accMult.toNat = mult.toNat ^ d.toNat % 2 ^ 64 ∧
    (jumpUnit l d).accPlus.toNat = l.inc.toNat * (∑ k ∈ Finset.range d.toNat, mult.toNat ^ k) % 2 ^ 64

/-- R142: the loop runs bitlen(D) times, at most 64 and exactly 64 where bit 63 is set, and a unit that always runs 64
iterations ends with the same accumulators. -/
def Obligations.JumpRunsBitlenIterations : Prop :=
  ∀ (l : Lane) (d : Word),
    let start := JumpUnit.init l d
    jumpUnit l d = start.iterations (bitlen d) ∧
    (∀ k, k < bitlen d → (start.iterations k).rem ≠ 0#64) ∧
    (start.iterations (bitlen d)).rem = 0#64 ∧
    bitlen d ≤ 64 ∧ (d.msb = true → bitlen d = 64) ∧
    (start.iterations 64).accMult = (jumpUnit l d).accMult ∧
    (start.iterations 64).accPlus = (jumpUnit l d).accPlus

/-- R72, R146: SKIP n and then JUMPBACK n restores both lanes. -/
def Obligations.JumpbackUndoesSkip : Prop :=
  ∀ (n : Int) (s : State), ∃ i j t u,
    (Pseudo.skip n).expand = [i] ∧ (Pseudo.jumpback n).expand = [j] ∧
    exec i s = .next t ∧ exec j t = .next u ∧ u.laneA = s.laneA ∧ u.laneB = s.laneB

/-! ### Readback -/

/-- R160, R20, R22: READ_STATE returns the selected register; everything not named stays. -/
def Obligations.ReadStateReturnsTheRegister : Prop :=
  ∀ s : State,
    let answers : LaneReg → BitVec 32 → Word → Prop := fun r w v =>
      encode (.readState r) = { word := w, beats := [] } ∧
      exec (.readState r) s = .next
        { s with activity := .idle, responses := { code := .ok, result := v } :: s.responses }
    answers .stateA 0x00000030#32 s.laneA.state ∧ answers .incA 0x00000130#32 (s.laneA.incHi ++ 1#1) ∧
    answers .stateB 0x00000230#32 s.laneB.state ∧ answers .incB 0x00000330#32 (s.laneB.incHi ++ 1#1)

/-- R162, R27: READ_STATUS returns SEEDED in bit 0, ENT_FAIL in bit 1 and zeros above; everything not named stays. -/
def Obligations.ReadStatusReturnsTheTwoBits : Prop :=
  encode .readStatus = { word := 0x00000031#32, beats := [] } ∧
  ∀ s : State, ∃ v : Word,
    exec .readStatus s = .next
      { s with activity := .idle, responses := { code := .ok, result := v } :: s.responses } ∧
    v.getLsbD 0 = s.seeded ∧ v.getLsbD 1 = s.entFail ∧ ∀ k, 2 ≤ k → v.getLsbD k = false

/-- R22, R161: INC_A and INC_B read with bit 0 set, in every state. -/
def Obligations.IncrementsReadOdd : Prop :=
  ∀ (s : State) (r : LaneReg), r = .incA ∨ r = .incB → ∃ t v,
    exec (.readState r) s = .next t ∧ t.responses = { code := .ok, result := v } :: s.responses ∧
    v.getLsbD 0 = true

/-- R163: a READ_STATE or READ_STATUS before any command changes neither that command's responses nor its end state. -/
def Obligations.ReadbackHasNoSideEffect : Prop :=
  ∀ (i j : Instr) (s t u : State), (i = .readStatus ∨ ∃ r, i = .readState r) →
    exec i s = .next t → exec j s = .next u →
    ∃ new, u.responses = new ++ s.responses ∧ exec j t = .next { u with responses := new ++ t.responses }

/-! ### Frames and the whole machine -/

/-- R22, R124, R143: NEXT and ADVANCE leave the increments, STATUS, the entropy port and the input alone. -/
def Obligations.DrawAndJumpFrame : Prop :=
  ∀ (i : Instr) (s t : State), (i = .next ∨ ∃ d, i = .advance d) → exec i s = .next t →
    t.x .incA = s.x .incA ∧ t.x .incB = s.x .incB ∧ t.status = s.status ∧
    t.entropyBuf = s.entropyBuf ∧ t.requests = s.requests ∧ t.inputs = s.inputs

/-- R48, R160, R162: READ_STATE and READ_STATUS leave every register, STATUS, the entropy port and the input alone. -/
def Obligations.ReadbackFrame : Prop :=
  ∀ (i : Instr) (s t : State), (i = .readStatus ∨ ∃ r, i = .readState r) → exec i s = .next t →
    (∀ r, t.x r = s.x r) ∧ t.status = s.status ∧
    t.entropyBuf = s.entropyBuf ∧ t.requests = s.requests ∧ t.inputs = s.inputs

/-- R106, R107: SEED and SEED_BYTES leave ENT_FAIL, the entropy port and the input alone. -/
def Obligations.SeedingFrame : Prop :=
  ∀ (i : Instr) (s t : State), ((∃ a b c d, i = .seed a b c d) ∨ (∃ block, i = .seedBytes block)) →
    exec i s = .next t →
    t.status.getLsbD 1 = s.status.getLsbD 1 ∧
    t.entropyBuf = s.entropyBuf ∧ t.requests = s.requests ∧ t.inputs = s.inputs

/-- R181: every well-formed command but SEED_DRAW completes with OK, from every state. -/
def Obligations.LegalCommandsCompleteWithOk : Prop :=
  ∀ (i : Instr) (s : State), i.wf = true → i ≠ .seedDraw →
    ∃ t v, exec i s = .next t ∧ t.activity = .idle ∧ t.responses = { code := .ok, result := v } :: s.responses

/-- R28, R29, R213: the STATUS bits gate no command. With any other values of them every command answers a next state with the
same lanes, activity, entropy port, input and responses; the result of READ_STATUS alone may differ. NEXT and ADVANCE keep
the bits as well. -/
def Obligations.StatusGatesNothing : Prop :=
  ∀ (i : Instr) (s t : State) (b e : Bool), exec i s = .next t →
    ∃ t', exec i { s with seeded := b, entFail := e } = .next t' ∧
      t'.laneA = t.laneA ∧ t'.laneB = t.laneB ∧ t'.activity = t.activity ∧ t'.entropyBuf = t.entropyBuf ∧
      t'.inputs = t.inputs ∧ t'.requests = t.requests ∧
      (i ≠ .readStatus → t'.responses = t.responses) ∧
      (i = .readStatus → ∃ v v', t.responses = { code := .ok, result := v } :: s.responses ∧
        t'.responses = { code := .ok, result := v' } :: s.responses) ∧
      ((i = .next ∨ ∃ d, i = .advance d) → t' = { t with seeded := b, entFail := e })

/-- R180, R60: what a step adds to the responses is nothing or one response; its CODE is 0, 1 or 2, and its RESULT is 0 with
every code but OK. -/
def Obligations.OneResponseAtMostPerStep : Prop :=
  ∀ s t : State, step s = .next t →
    t.responses = s.responses ∨
    ∃ r : Response, t.responses = r :: s.responses ∧ t.activity = .idle ∧
      (r.code.bits = 0#4 ∨ r.code.bits = 1#4 ∨ r.code.bits = 2#4) ∧ (r.code.bits ≠ 0#4 → r.result = 0#64)

/-- R60, R220: a command that an IDLE core accepts has its one response in that step; only SEED_DRAW can be left BUSY, with
none yet. -/
def Obligations.AcceptedCommandIsAnswered : Prop :=
  ∀ (s t : State) (c : Transaction) (rest : List Input) (i : Instr),
    s.activity = .idle → s.inputs = .command c :: rest → decode c = .ok i → step s = .next t →
    (t.activity = .idle ∧ ∃ r, t.responses = r :: s.responses) ∨
    (t.activity = .busy ∧ t.responses = s.responses ∧ i = .seedDraw)

/-- R110, R180, R185: `exec` answers no code but OK, or ENTROPY from SEED_DRAW with ENT_FAIL set. -/
def Obligations.EntropyCodeOnlyFromSeedDraw : Prop :=
  ∀ (i : Instr) (s t : State) (r : Response), exec i s = .next t → t.responses = r :: s.responses →
    r.code = .ok ∨ (r.code = .entropy ∧ i = .seedDraw ∧ t.entFail = true)

/-- R181, R184, R187, I7: a step faults never, and refuses only a wrong beat count. -/
def Obligations.StepStopsOnlyOnBeatCount : Prop :=
  ∀ s : State, (∃ t, step s = .next t) ∨
    (step s = .refused .beatCount ∧ ∃ t rest, s.activity = .idle ∧ s.inputs = .command t :: rest ∧
      decode t = .error .beatCount)

/-- R32, R47, R216: commands are neither lost, duplicated nor reordered. A BUSY core takes none (log 4). An IDLE one takes the
command at the head of its events, and no other, and runs it or answers it ILLEGAL, unless reset cuts it short; the
commands behind it stay as they are. What reset keeps is the model's choice (logs 3, 5, 6, 9). -/
def Obligations.CommandsKeepTheirOrder : Prop :=
  ∀ s t : State, step s = .next t →
    (s.activity = .busy → commandsOf t.inputs = commandsOf s.inputs) ∧
    (s.activity = .idle →
      (∀ c rest, s.inputs = .command c :: rest → commandsOf t.inputs = commandsOf rest ∧
        ((∃ i, decode c = .ok i ∧ exec i { s with activity := .busy, inputs := rest } = .next t) ∨
         (∃ why, decodeWord c.word = .error why ∧
            t = { s with inputs := rest, responses := { code := .illegal, result := 0#64 } :: s.responses }))) ∧
      (∀ c rest, s.inputs = .commandCutByReset c :: rest → commandsOf t.inputs = commandsOf rest ∧
        t = { State.reset with inputs := rest, responses := s.responses, requests := s.requests }) ∧
      ((∀ c rest, s.inputs ≠ .command c :: rest ∧ s.inputs ≠ .commandCutByReset c :: rest) →
        commandsOf t.inputs = commandsOf s.inputs))

/-- R33, R27, R31, R32: the state after reset; the lanes hold the open parameters of R6 (Config's constants have no body: log
1). -/
def Obligations.ResetValues : Prop :=
  State.reset.x .stateA = Config.resetStateA ∧ State.reset.x .incA = Config.resetIncHiA ++ 1#1 ∧
  State.reset.x .stateB = Config.resetStateB ∧ State.reset.x .incB = Config.resetIncHiB ++ 1#1 ∧
  State.reset.status = 0#64 ∧ State.reset.activity = .idle ∧ State.reset.entropyBuf = []

/-- R210, R185, R221: reset takes precedence, in a BUSY core, in an IDLE one and over a command it cuts short: every piece of
state takes its reset value, no response is sent, and no request is made. That inputs, responses and requests are kept by
reset is the model's choice (logs 3, 5, 6, 9). -/
def Obligations.ResetAbandonsTheCommand : Prop :=
  ∀ (s : State) (rest : List Input),
    ((s.activity = .busy ∧ wake s.requests s.inputs = some (.reset, rest)) ∨
     (s.activity = .idle ∧ s.inputs = .reset :: rest) ∨
     (s.activity = .idle ∧ ∃ t, s.inputs = .commandCutByReset t :: rest)) →
    step s = .next { State.reset with inputs := rest, responses := s.responses, requests := s.requests }

/-- R210, I12: an answer that finds its request abandoned has no effect: an IDLE core drops it, and a BUSY one does what it
would do had it not come; where nothing else reaches it, it stays as it is. Request numbers are the model's way to say which
request an answer belongs to (log 5), and that waiting is a step is log 7. -/
def Obligations.LateAnswersAreIgnored : Prop :=
  ∀ (s : State) (n : Nat) (a : Answer) (rest : List Input), s.inputs = .answer n a :: rest →
    (s.activity = .idle → step s = .next { s with inputs := rest }) ∧
    (s.activity = .busy → n ≠ s.requests →
      (wake s.requests rest = none → step s = .next s) ∧
      (wake s.requests rest ≠ none → step s = step { s with inputs := rest }))

/-- R23, R104: the distinct-stream invariant is kept by every step, from every state that has it. -/
def Obligations.DistinctStreamsIsInvariant : Prop :=
  ∀ s t : State, s.DistinctStreams → step s = .next t → t.DistinctStreams

/-- R23, R28: it holds after reset. -/
def Obligations.DistinctStreamsAtReset : Prop := State.reset.DistinctStreams

/-- R31, R32, R190: the entropy port's invariant is kept by every step, from every state that has it. The count of requests is
the model's own field (log 5). -/
def Obligations.PortOrderlyIsInvariant : Prop :=
  ∀ s t : State, s.PortOrderly → step s = .next t → t.PortOrderly

/-- R31, R33: it holds after reset. The count of requests is the model's own field (log 5). -/
def Obligations.PortOrderlyAtReset : Prop := State.reset.PortOrderly

/-- R27, R28, R29: a STATUS bit is cleared by reset only. SEEDED is set only by a seeding command that answers OK, and each
such answer leaves it set; ENT_FAIL is set only by a SEED_DRAW that answers ENTROPY, and each such answer leaves it set. What
reset keeps, and that a command which reset cuts short is an event of its own, is the model's choice (logs 3, 5, 6, 9). -/
def Obligations.StatusBitsAreSticky : Prop :=
  ∀ s t : State, step s = .next t →
    ((s.seeded = true ∧ t.seeded = false) ∨ (s.entFail = true ∧ t.entFail = false) →
      ∃ rest, s.ResetComes rest ∧
        t = { State.reset with inputs := rest, responses := s.responses, requests := s.requests }) ∧
    (s.seeded = false → t.seeded = true →
      (∃ i, s.InProgress i ∧ Instr.Seeding i) ∧ t.responses = { code := .ok, result := 0#64 } :: s.responses) ∧
    (∀ i v, s.InProgress i → Instr.Seeding i → t.responses = { code := .ok, result := v } :: s.responses →
      t.seeded = true) ∧
    (s.entFail = false → t.entFail = true →
      s.InProgress .seedDraw ∧ t.responses = { code := .entropy, result := 0#64 } :: s.responses) ∧
    (∀ v, t.responses = { code := .entropy, result := v } :: s.responses →
      s.InProgress .seedDraw ∧ t.entFail = true)

/-- R219, R21, R22: a step resets the core, or completes a seeding command and leaves the lanes that this command's own four
seed words give, or steps both lanes by one same count. So, whatever words the lanes were seeded with, every step that neither
resets nor completes a seeding keeps both lanes the same number of steps after it. The premise is the port's invariant
(PortOrderlyIsInvariant); request numbers, one-step draws and what reset keeps are the model's choice (logs 3, 5, 6, 8, 9). -/
def Obligations.LanesStayInLockStep : Prop :=
  ∀ s t : State, s.PortOrderly → step s = .next t →
    ((∃ rest, s.ResetComes rest ∧
        t = { State.reset with inputs := rest, responses := s.responses, requests := s.requests }) ∨
     (∃ a b c d, s.StepSeedsWith a b c d ∧ t.laneA = seededLane a c ∧ t.laneB = seededLane b (laneBSeq c d) ∧
        t.seeded = true ∧ t.responses = { code := .ok, result := 0#64 } :: s.responses) ∨
     (∃ n, t.laneA = laneSteps n s.laneA ∧ t.laneB = laneSteps n s.laneB)) ∧
    (∀ a b c d, s.InStepSince a b c d → (∀ rest, ¬ s.ResetComes rest) →
      (∀ a' b' c' d', ¬ s.StepSeedsWith a' b' c' d') → t.InStepSince a b c d)
end

