-- ==== Sys2Proof/Laws/Decode.lean ====
section
/-! SUPPORT. The command word's fields, the selector and the byte order, said once. -/

namespace Sys2Proof

/-- The fields of a made word (R61). -/
theorem fieldOp_mkWord (sel : BitVec 2) (op : BitVec 8) : fieldOp (mkWord sel op) = op := by
  apply BitVec.eq_of_getLsbD_eq
  intro k hk
  unfold fieldOp mkWord
  rw [BitVec.getLsbD_extractLsb', BitVec.getLsbD_append]
  simp [hk]

theorem fieldSel_mkWord (sel : BitVec 2) (op : BitVec 8) : fieldSel (mkWord sel op) = sel := by
  apply BitVec.eq_of_getLsbD_eq
  intro k hk
  unfold fieldSel mkWord
  rw [BitVec.getLsbD_extractLsb', BitVec.getLsbD_append, BitVec.getLsbD_append]
  simp [hk]

theorem fieldRsv_mkWord (sel : BitVec 2) (op : BitVec 8) : fieldRsv (mkWord sel op) = 0#22 := by
  apply BitVec.eq_of_getLsbD_eq
  intro k hk
  have h : ¬ 10 + k < 8 := by omega
  have h' : ¬ 10 + k - 8 < 2 := by omega
  unfold fieldRsv mkWord
  rw [BitVec.getLsbD_extractLsb', BitVec.getLsbD_append, BitVec.getLsbD_append]
  simp [h, h']

/-- A word is made of its fields (R61). -/
theorem eq_mkWord {w : BitVec 32} (h : fieldRsv w = 0#22) : w = mkWord (fieldSel w) (fieldOp w) := by
  apply BitVec.eq_of_getLsbD_eq
  intro k hk
  unfold mkWord fieldOp fieldSel
  rw [BitVec.getLsbD_append, BitVec.getLsbD_append]
  simp only [BitVec.getLsbD_extractLsb']
  by_cases h8 : k < 8
  · simp [h8]
  · by_cases h10 : k - 8 < 2
    · have : 8 + (k - 8) = k := by omega
      simp [h8, h10, this]
    · have := congrArg (fun v => BitVec.getLsbD v (k - 10)) h
      have e : 10 + (k - 10) = k := by omega
      have e' : k - 10 < 22 := by omega
      simp only [fieldRsv, BitVec.getLsbD_extractLsb', e, e', decide_true, Bool.true_and, BitVec.getLsbD_zero] at this
      simp [h8, h10, this]

/-- The selector names the register it came from, and back (R20). -/
theorem LaneReg.ofSel_sel (r : LaneReg) : LaneReg.ofSel r.sel = r := by cases r <;> decide

theorem LaneReg.sel_ofSel (sel : BitVec 2) : (LaneReg.ofSel sel).sel = sel := by
  revert sel; decide

/-- A command's word decodes to it (R67, R68). -/
theorem decodeWord_word (c : Command) : decodeWord c.word = .ok c := by
  cases c with
  | readState r => cases r <;> decide
  | _ => decide

/-- The command word of a legal word is that word (R67, R68). -/
theorem decodeWord_ok {w : BitVec 32} {c : Command} (h : decodeWord w = .ok c) : w = c.word := by
  have mk : ∀ {sel : BitVec 2} {op : BitVec 8}, fieldRsv w = 0#22 → fieldSel w = sel → fieldOp w = op →
      w = mkWord sel op := fun hr hs ho => by rw [← hs, ← ho]; exact eq_mkWord hr
  unfold decodeWord at h
  split at h
  · cases h
  rename_i hr
  simp only [ne_eq, not_not] at hr
  split at h
  · rename_i ho
    cases h
    exact mk hr (LaneReg.sel_ofSel _).symm ho
  split at h
  · cases h
  rename_i hs
  simp only [ne_eq, not_not] at hs
  repeat' split at h
  all_goals first | (cases h; done) | (rename_i ho; cases h; exact mk hr hs ho)

/-- Which beats make a command of 0, 1 or 4 operands. -/
theorem operands0_eq_some {j i : Instr} {bs : List Word} : operands0 j bs = some i ↔ bs = [] ∧ j = i := by
  cases bs <;> simp [operands0]

theorem operands1_eq_some {f : Word → Instr} {i : Instr} {bs : List Word} :
    operands1 f bs = some i ↔ ∃ a, bs = [a] ∧ f a = i := by
  rcases bs with _ | ⟨a, _ | ⟨b, r⟩⟩ <;> simp [operands1]

theorem operands4_eq_some {f : Word → Word → Word → Word → Instr} {i : Instr} {bs : List Word} :
    operands4 f bs = some i ↔ ∃ a b c d, bs = [a, b, c, d] ∧ f a b c d = i := by
  rcases bs with _ | ⟨a, _ | ⟨b, _ | ⟨c, _ | ⟨d, _ | ⟨e, r⟩⟩⟩⟩⟩ <;> simp [operands4]

/-- A command takes its beats exactly when there are `K(OP)` of them (R65, R70). -/
theorem withBeats_isSome_iff (c : Command) (bs : List Word) :
    (∃ i, c.withBeats bs = some i) ↔ bs.length = c.beatCount := by
  cases c <;>
    simp only [Command.withBeats, Command.beatCount, operands0_eq_some, operands1_eq_some, operands4_eq_some,
      List.length_eq_zero_iff, List.length_eq_one_iff, List.length_eq_four] <;> aesop

/-- A beat carries eight bytes (R66). -/
theorem bytesOfBeat_length (v : Word) : (bytesOfBeat v).length = 8 := rfl

/-- A byte of a word: bit `k` belongs to the byte at `m = 8j` when `k / 8 = j`. -/
theorem getLsbD_byte_shifted (b : Byte) {j m : Nat} (hm : m = 8 * j) (k : Nat) (hk : k < 64) :
    ((b.setWidth 64 : Word) <<< m).getLsbD k = (decide (k / 8 = j) && b.getLsbD (k % 8)) := by
  subst hm
  rw [BitVec.getLsbD_shiftLeft, BitVec.getLsbD_setWidth]
  by_cases h : k / 8 = j
  · have h1 : ¬ k < 8 * j := by omega
    have h2 : k - 8 * j = k % 8 := by omega
    have h3 : k % 8 < 64 := by omega
    simp [h, h1, h2, h3, hk]
  · by_cases h1 : k < 8 * j
    · simp [h, h1]
    · have : 8 ≤ k - 8 * j := by omega
      simp [h, BitVec.getLsbD_of_ge b (k - 8 * j) this]

/-- The bits of a little-endian word (R42): bit `i` is bit `i % 8` of byte `i / 8`. -/
theorem blockWord_getLsbD (block : List Byte) (n i : Nat) (hi : i < 64) :
    (blockWord block n).getLsbD i = (block.getD (8 * n + i / 8) 0#8).getLsbD (i % 8) := by
  have h0 := getLsbD_byte_shifted (block.getD (8 * n + 0) 0#8) (j := 0) (m := 0) (by omega) i hi
  rw [BitVec.shiftLeft_zero] at h0
  simp only [blockWord, opbyte, BitVec.getLsbD_or, h0,
    getLsbD_byte_shifted _ (j := 1) (m := 8) (by omega) i hi, getLsbD_byte_shifted _ (j := 2) (m := 16) (by omega) i hi,
    getLsbD_byte_shifted _ (j := 3) (m := 24) (by omega) i hi, getLsbD_byte_shifted _ (j := 4) (m := 32) (by omega) i hi,
    getLsbD_byte_shifted _ (j := 5) (m := 40) (by omega) i hi, getLsbD_byte_shifted _ (j := 6) (m := 48) (by omega) i hi,
    getLsbD_byte_shifted _ (j := 7) (m := 56) (by omega) i hi]
  have : i / 8 = 0 ∨ i / 8 = 1 ∨ i / 8 = 2 ∨ i / 8 = 3 ∨ i / 8 = 4 ∨ i / 8 = 5 ∨ i / 8 = 6 ∨ i / 8 = 7 := by omega
  rcases this with h | h | h | h | h | h | h | h <;> simp [h]

/-- The bits of a beat's byte (R66). -/
theorem bytesOfBeat_getD (v : Word) {j : Nat} (hj : j < 8) : (bytesOfBeat v).getD j 0#8 = v.extractLsb' (8 * j) 8 := by
  have : j = 0 ∨ j = 1 ∨ j = 2 ∨ j = 3 ∨ j = 4 ∨ j = 5 ∨ j = 6 ∨ j = 7 := by omega
  rcases this with rfl | rfl | rfl | rfl | rfl | rfl | rfl | rfl <;> rfl

/-- The words of a block are the words of its tail (R42). -/
theorem blockWord_drop (block : List Byte) (n : Nat) : blockWord block n = blockWord (block.drop (8 * n)) 0 := by
  simp [blockWord, opbyte, List.getD_eq_getElem?_getD, List.getElem?_drop]

/-- The eight bytes of a beat, read little-endian, are the beat (R42, R66). -/
theorem blockWord_bytesOfBeat_append (v : Word) (r : List Byte) : blockWord (bytesOfBeat v ++ r) 0 = v := by
  apply BitVec.eq_of_getLsbD_eq
  intro k hk
  have h8 : k / 8 < 8 := by omega
  have e : 8 * (k / 8) + k % 8 = k := by omega
  have h9 : k % 8 < 8 := by omega
  rw [blockWord_getLsbD _ _ _ hk, Nat.mul_zero, Nat.zero_add, List.getD_append _ _ _ _ (by simpa [bytesOfBeat_length]),
    bytesOfBeat_getD v h8, BitVec.getLsbD_extractLsb', e]
  simp [h9]

/-- The other way: a word's bytes are those it was read from (R42, R66). -/
theorem bytesOfBeat_blockWord (b0 b1 b2 b3 b4 b5 b6 b7 : Byte) (r : List Byte) :
    bytesOfBeat (blockWord (b0 :: b1 :: b2 :: b3 :: b4 :: b5 :: b6 :: b7 :: r) 0) = [b0, b1, b2, b3, b4, b5, b6, b7] := by
  have key : ∀ (block : List Byte) (j : Nat), j < 8 →
      (blockWord block 0).extractLsb' (8 * j) 8 = block.getD j 0#8 := by
    intro block j hj
    apply BitVec.eq_of_getLsbD_eq
    intro k hk
    have e1 : (8 * j + k) / 8 = j := by omega
    have e2 : (8 * j + k) % 8 = k := by omega
    rw [BitVec.getLsbD_extractLsb', blockWord_getLsbD _ _ _ (by omega), e1, e2]
    simp [hk]
  unfold bytesOfBeat
  exact congrArg₂ _ (key _ 0 (by omega)) (congrArg₂ _ (key _ 1 (by omega)) (congrArg₂ _ (key _ 2 (by omega))
    (congrArg₂ _ (key _ 3 (by omega)) (congrArg₂ _ (key _ 4 (by omega)) (congrArg₂ _ (key _ 5 (by omega))
    (congrArg₂ _ (key _ 6 (by omega)) (congrArg₂ _ (key _ 7 (by omega)) rfl)))))))

end Sys2Proof
end

