-- ==== Sys2Proof/Laws/State.lean ====
section
/-! SUPPORT. One lemma per field per named update of the state and of a lane, so that no later proof unfolds one. -/

namespace Sys2Proof.Machine

open Sys2Proof

variable (s : State) (l : Lane)

@[simp] theorem State.setLanes_laneA (a b : Lane) : (s.setLanes a b).laneA = a := rfl
@[simp] theorem State.setLanes_laneB (a b : Lane) : (s.setLanes a b).laneB = b := rfl
@[simp] theorem State.setLanes_seeded (a b : Lane) : (s.setLanes a b).seeded = s.seeded := rfl
@[simp] theorem State.setLanes_entFail (a b : Lane) : (s.setLanes a b).entFail = s.entFail := rfl
@[simp] theorem State.setLanes_activity (a b : Lane) : (s.setLanes a b).activity = s.activity := rfl
@[simp] theorem State.setLanes_entropyBuf (a b : Lane) : (s.setLanes a b).entropyBuf = s.entropyBuf := rfl
@[simp] theorem State.setLanes_inputs (a b : Lane) : (s.setLanes a b).inputs = s.inputs := rfl
@[simp] theorem State.setLanes_responses (a b : Lane) : (s.setLanes a b).responses = s.responses := rfl
@[simp] theorem State.setLanes_requests (a b : Lane) : (s.setLanes a b).requests = s.requests := rfl

@[simp] theorem State.setSeeded_laneA : (s.setSeeded).laneA = s.laneA := rfl
@[simp] theorem State.setSeeded_laneB : (s.setSeeded).laneB = s.laneB := rfl
@[simp] theorem State.setSeeded_seeded : (s.setSeeded).seeded = true := rfl
@[simp] theorem State.setSeeded_entFail : (s.setSeeded).entFail = s.entFail := rfl
@[simp] theorem State.setSeeded_activity : (s.setSeeded).activity = s.activity := rfl
@[simp] theorem State.setSeeded_entropyBuf : (s.setSeeded).entropyBuf = s.entropyBuf := rfl
@[simp] theorem State.setSeeded_inputs : (s.setSeeded).inputs = s.inputs := rfl
@[simp] theorem State.setSeeded_responses : (s.setSeeded).responses = s.responses := rfl
@[simp] theorem State.setSeeded_requests : (s.setSeeded).requests = s.requests := rfl

@[simp] theorem State.setEntFail_laneA : (s.setEntFail).laneA = s.laneA := rfl
@[simp] theorem State.setEntFail_laneB : (s.setEntFail).laneB = s.laneB := rfl
@[simp] theorem State.setEntFail_seeded : (s.setEntFail).seeded = s.seeded := rfl
@[simp] theorem State.setEntFail_entFail : (s.setEntFail).entFail = true := rfl
@[simp] theorem State.setEntFail_activity : (s.setEntFail).activity = s.activity := rfl
@[simp] theorem State.setEntFail_entropyBuf : (s.setEntFail).entropyBuf = s.entropyBuf := rfl
@[simp] theorem State.setEntFail_inputs : (s.setEntFail).inputs = s.inputs := rfl
@[simp] theorem State.setEntFail_responses : (s.setEntFail).responses = s.responses := rfl
@[simp] theorem State.setEntFail_requests : (s.setEntFail).requests = s.requests := rfl

@[simp] theorem State.respond_laneA (c : Code) (v : Word) : (s.respond c v).laneA = s.laneA := rfl
@[simp] theorem State.respond_laneB (c : Code) (v : Word) : (s.respond c v).laneB = s.laneB := rfl
@[simp] theorem State.respond_seeded (c : Code) (v : Word) : (s.respond c v).seeded = s.seeded := rfl
@[simp] theorem State.respond_entFail (c : Code) (v : Word) : (s.respond c v).entFail = s.entFail := rfl
@[simp] theorem State.respond_activity (c : Code) (v : Word) : (s.respond c v).activity = .idle := rfl
@[simp] theorem State.respond_entropyBuf (c : Code) (v : Word) : (s.respond c v).entropyBuf = s.entropyBuf := rfl
@[simp] theorem State.respond_inputs (c : Code) (v : Word) : (s.respond c v).inputs = s.inputs := rfl
@[simp] theorem State.respond_responses (c : Code) (v : Word) : (s.respond c v).responses = { code := c, result := v } :: s.responses := rfl
@[simp] theorem State.respond_requests (c : Code) (v : Word) : (s.respond c v).requests = s.requests := rfl

@[simp] theorem State.raise_laneA (c : Code) : (s.raise c).laneA = s.laneA := rfl
@[simp] theorem State.raise_laneB (c : Code) : (s.raise c).laneB = s.laneB := rfl
@[simp] theorem State.raise_seeded (c : Code) : (s.raise c).seeded = s.seeded := rfl
@[simp] theorem State.raise_entFail (c : Code) : (s.raise c).entFail = s.entFail := rfl
@[simp] theorem State.raise_activity (c : Code) : (s.raise c).activity = .idle := rfl
@[simp] theorem State.raise_entropyBuf (c : Code) : (s.raise c).entropyBuf = s.entropyBuf := rfl
@[simp] theorem State.raise_inputs (c : Code) : (s.raise c).inputs = s.inputs := rfl
@[simp] theorem State.raise_responses (c : Code) : (s.raise c).responses = { code := c, result := 0#64 } :: s.responses := rfl
@[simp] theorem State.raise_requests (c : Code) : (s.raise c).requests = s.requests := rfl

@[simp] theorem State.accept_laneA (rest : List Input) : (s.accept rest).laneA = s.laneA := rfl
@[simp] theorem State.accept_laneB (rest : List Input) : (s.accept rest).laneB = s.laneB := rfl
@[simp] theorem State.accept_seeded (rest : List Input) : (s.accept rest).seeded = s.seeded := rfl
@[simp] theorem State.accept_entFail (rest : List Input) : (s.accept rest).entFail = s.entFail := rfl
@[simp] theorem State.accept_activity (rest : List Input) : (s.accept rest).activity = .busy := rfl
@[simp] theorem State.accept_entropyBuf (rest : List Input) : (s.accept rest).entropyBuf = s.entropyBuf := rfl
@[simp] theorem State.accept_inputs (rest : List Input) : (s.accept rest).inputs = rest := rfl
@[simp] theorem State.accept_responses (rest : List Input) : (s.accept rest).responses = s.responses := rfl
@[simp] theorem State.accept_requests (rest : List Input) : (s.accept rest).requests = s.requests := rfl

@[simp] theorem State.request_laneA : (s.request).laneA = s.laneA := rfl
@[simp] theorem State.request_laneB : (s.request).laneB = s.laneB := rfl
@[simp] theorem State.request_seeded : (s.request).seeded = s.seeded := rfl
@[simp] theorem State.request_entFail : (s.request).entFail = s.entFail := rfl
@[simp] theorem State.request_activity : (s.request).activity = s.activity := rfl
@[simp] theorem State.request_entropyBuf : (s.request).entropyBuf = s.entropyBuf := rfl
@[simp] theorem State.request_inputs : (s.request).inputs = s.inputs := rfl
@[simp] theorem State.request_responses : (s.request).responses = s.responses := rfl
@[simp] theorem State.request_requests : (s.request).requests = s.requests + 1 := rfl

@[simp] theorem State.collect_laneA (v : Word) (rest : List Input) : (s.collect v rest).laneA = s.laneA := rfl
@[simp] theorem State.collect_laneB (v : Word) (rest : List Input) : (s.collect v rest).laneB = s.laneB := rfl
@[simp] theorem State.collect_seeded (v : Word) (rest : List Input) : (s.collect v rest).seeded = s.seeded := rfl
@[simp] theorem State.collect_entFail (v : Word) (rest : List Input) : (s.collect v rest).entFail = s.entFail := rfl
@[simp] theorem State.collect_activity (v : Word) (rest : List Input) : (s.collect v rest).activity = s.activity := rfl
@[simp] theorem State.collect_entropyBuf (v : Word) (rest : List Input) : (s.collect v rest).entropyBuf = s.entropyBuf ++ [v] := rfl
@[simp] theorem State.collect_inputs (v : Word) (rest : List Input) : (s.collect v rest).inputs = rest := rfl
@[simp] theorem State.collect_responses (v : Word) (rest : List Input) : (s.collect v rest).responses = s.responses := rfl
@[simp] theorem State.collect_requests (v : Word) (rest : List Input) : (s.collect v rest).requests = s.requests := rfl

@[simp] theorem State.discardBuffer_laneA : (s.discardBuffer).laneA = s.laneA := rfl
@[simp] theorem State.discardBuffer_laneB : (s.discardBuffer).laneB = s.laneB := rfl
@[simp] theorem State.discardBuffer_seeded : (s.discardBuffer).seeded = s.seeded := rfl
@[simp] theorem State.discardBuffer_entFail : (s.discardBuffer).entFail = s.entFail := rfl
@[simp] theorem State.discardBuffer_activity : (s.discardBuffer).activity = s.activity := rfl
@[simp] theorem State.discardBuffer_entropyBuf : (s.discardBuffer).entropyBuf = [] := rfl
@[simp] theorem State.discardBuffer_inputs : (s.discardBuffer).inputs = s.inputs := rfl
@[simp] theorem State.discardBuffer_responses : (s.discardBuffer).responses = s.responses := rfl
@[simp] theorem State.discardBuffer_requests : (s.discardBuffer).requests = s.requests := rfl

@[simp] theorem State.enterReset_laneA (rest : List Input) : (s.enterReset rest).laneA = State.reset.laneA := rfl
@[simp] theorem State.enterReset_laneB (rest : List Input) : (s.enterReset rest).laneB = State.reset.laneB := rfl
@[simp] theorem State.enterReset_seeded (rest : List Input) : (s.enterReset rest).seeded = false := rfl
@[simp] theorem State.enterReset_entFail (rest : List Input) : (s.enterReset rest).entFail = false := rfl
@[simp] theorem State.enterReset_activity (rest : List Input) : (s.enterReset rest).activity = .idle := rfl
@[simp] theorem State.enterReset_entropyBuf (rest : List Input) : (s.enterReset rest).entropyBuf = [] := rfl
@[simp] theorem State.enterReset_inputs (rest : List Input) : (s.enterReset rest).inputs = rest := rfl
@[simp] theorem State.enterReset_responses (rest : List Input) : (s.enterReset rest).responses = s.responses := rfl
@[simp] theorem State.enterReset_requests (rest : List Input) : (s.enterReset rest).requests = s.requests := rfl

@[simp] theorem State.present_laneA (t : Transaction) : (s.present t).laneA = s.laneA := rfl
@[simp] theorem State.present_laneB (t : Transaction) : (s.present t).laneB = s.laneB := rfl
@[simp] theorem State.present_seeded (t : Transaction) : (s.present t).seeded = s.seeded := rfl
@[simp] theorem State.present_entFail (t : Transaction) : (s.present t).entFail = s.entFail := rfl
@[simp] theorem State.present_activity (t : Transaction) : (s.present t).activity = .idle := rfl
@[simp] theorem State.present_entropyBuf (t : Transaction) : (s.present t).entropyBuf = [] := rfl
@[simp] theorem State.present_inputs (t : Transaction) : (s.present t).inputs = .command t :: s.inputs := rfl
@[simp] theorem State.present_responses (t : Transaction) : (s.present t).responses = s.responses := rfl
@[simp] theorem State.present_requests (t : Transaction) : (s.present t).requests = s.requests := rfl

@[simp] theorem Lane.setState_state (v : Word) : (l.setState v).state = v := rfl
@[simp] theorem Lane.setState_incHi (v : Word) : (l.setState v).incHi = l.incHi := rfl
@[simp] theorem Lane.setInc_state (v : Word) : (l.setInc v).state = l.state := rfl
@[simp] theorem Lane.setInc_incHi (v : Word) : (l.setInc v).incHi = v.extractLsb' 1 63 := rfl
@[simp] theorem Lane.setState_inc (v : Word) : (l.setState v).inc = l.inc := rfl
@[simp] theorem laneStep_incHi : (laneStep l).incHi = l.incHi := by
  rw [laneStep, Lane.setState_incHi]
@[simp] theorem laneStep_inc : (laneStep l).inc = l.inc := by
  rw [laneStep, Lane.setState_inc]
theorem laneStep_state : (laneStep l).state = mult * l.state + l.inc := by
  rw [laneStep, Lane.setState_state]

/-! ### Registers and STATUS -/

theorem State.x_stateA : s.x .stateA = s.laneA.state := rfl
theorem State.x_incA : s.x .incA = s.laneA.inc := rfl
theorem State.x_stateB : s.x .stateB = s.laneB.state := rfl
theorem State.x_incB : s.x .incB = s.laneB.inc := rfl
theorem State.status_eq : s.status = statusWord s.seeded s.entFail := rfl

/-- Two states are equal when their fields are. -/
theorem State.eq_of_fields {s t : State} (h1 : s.laneA = t.laneA) (h2 : s.laneB = t.laneB) (h3 : s.seeded = t.seeded)
    (h4 : s.entFail = t.entFail) (h5 : s.activity = t.activity) (h6 : s.entropyBuf = t.entropyBuf)
    (h7 : s.inputs = t.inputs) (h8 : s.responses = t.responses) (h9 : s.requests = t.requests) : s = t := by
  cases s; cases t; simp_all

/-- Two lanes are equal when their fields are. -/
theorem Lane.eq_of_fields {l m : Lane} (h1 : l.state = m.state) (h2 : l.incHi = m.incHi) : l = m := by
  cases l; cases m; simp_all

end Sys2Proof.Machine
end

