-- ==== Sys2Proof/Laws/Ops.lean ====
section
/-! SUPPORT. What the shared operations can do, said once: the increment, STATUS, waking from a wait, SEED_DRAW's loop,
the meanings, and one step. -/

namespace Sys2Proof.Machine

open Sys2Proof

/-! ### The increment and STATUS -/

/-- A bit of the increment: bit 0 is hard-wired, bits 63..1 are the stored ones (R22). -/
theorem Lane.inc_getLsbD (l : Lane) (k : Nat) :
    l.inc.getLsbD k = if k = 0 then true else l.incHi.getLsbD (k - 1) := by
  unfold Lane.inc
  rw [BitVec.getLsbD_append]
  rcases k with _ | k
  · simp
  · simp

/-- The hard-wired bit (R22). -/
theorem Lane.inc_bit0 (l : Lane) : l.inc.getLsbD 0 = true := by rw [Lane.inc_getLsbD]; simp

/-- Bits 63..1 are the stored ones (R22). -/
theorem Lane.inc_bit_succ (l : Lane) (k : Nat) : l.inc.getLsbD (k + 1) = l.incHi.getLsbD k := by
  rw [Lane.inc_getLsbD]; simp

/-- A written increment reads back with bit 0 set (R22). -/
theorem Lane.inc_setInc (l : Lane) (v : Word) : (l.setInc v).inc = v ||| 1#64 := by
  apply BitVec.eq_of_getLsbD_eq
  intro i hi
  rcases i with _ | k
  · simp [Lane.inc_bit0]
  · rw [Lane.inc_bit_succ]
    have : k < 63 := by omega
    simp [BitVec.getLsbD_one, this, Nat.add_comm]

/-- Lanes with one increment have one stored increment. -/
theorem Lane.incHi_eq_iff (l m : Lane) : l.incHi = m.incHi ↔ l.inc = m.inc := by
  refine ⟨fun h => by simp [Lane.inc, h], fun h => BitVec.eq_of_getLsbD_eq fun i _ => ?_⟩
  rw [← Lane.inc_bit_succ, ← Lane.inc_bit_succ, h]

/-- The fields of STATUS (R27). -/
theorem statusWord_getLsbD (a b : Bool) (k : Nat) :
    (statusWord a b).getLsbD k = if k = 0 then a else if k = 1 then b else false := by
  unfold statusWord
  rw [BitVec.getLsbD_append, BitVec.getLsbD_append]
  rcases k with _ | _ | k <;> simp

/-! ### Waking from a wait (R190, R210, R216) -/

/-- Nothing that wakes a core takes a command from its port. -/
theorem wake_commandsOf {req : Nat} {ins out : List Input} {w : Wake} (h : wake req ins = some (w, out)) :
    commandsOf out = commandsOf ins := by
  induction ins generalizing out with
  | nil => simp [wake] at h
  | cons e rest ih =>
    cases e with
    | reset => simp only [wake, Option.some.injEq, Prod.mk.injEq] at h; simp [commandsOf, h.2]
    | answer n a =>
      simp only [wake] at h
      split at h
      · simp only [Option.some.injEq, Prod.mk.injEq] at h; simp [commandsOf, h.2]
      · simpa [commandsOf] using ih h
    | command t =>
      simp only [wake, Option.map_eq_some_iff, Prod.mk.injEq] at h
      obtain ⟨⟨w', o⟩, h, rfl, rfl⟩ := h
      simp [commandsOf, ih h]
    | commandCutByReset t =>
      simp only [wake, Option.map_eq_some_iff, Prod.mk.injEq] at h
      obtain ⟨⟨w', o⟩, h, rfl, rfl⟩ := h
      simp [commandsOf, ih h]

/-- An answer to the outstanding request wakes the core at once. -/
theorem wake_answer (req : Nat) (a : Answer) (rest : List Input) :
    wake req (.answer req a :: rest) = some (.answer a, rest) := by simp [wake]

/-- An answer to another request does not (I12). -/
theorem wake_late {req n : Nat} (h : n ≠ req) (a : Answer) (rest : List Input) :
    wake req (.answer n a :: rest) = wake req rest := by simp [wake, h]

/-! ### SEED_DRAW's loop (R109, R110, R190) -/

/-- Everything the loop can do, with a request outstanding and `n` more to make: end with all words, end at a Fail, or wait.
In each case `ws` are the words that answered its requests; it has made a further request for each (but for the last), and
lost no command. -/
theorem awaitWords_cases (n : Nat) (s : State) :
    (∃ ws ins, ws.length = n + 1 ∧ WordsArrive s.requests s.inputs ws ins ∧ commandsOf ins = commandsOf s.inputs ∧
      awaitWords n s =
        finishDraw { s with entropyBuf := s.entropyBuf ++ ws, inputs := ins, requests := s.requests + n }) ∨
    (∃ ws mid ins, ws.length ≤ n ∧ WordsArrive s.requests s.inputs ws mid ∧
      wake (s.requests + ws.length) mid = some (.answer .fail, ins) ∧ commandsOf ins = commandsOf s.inputs ∧
      awaitWords n s =
        failDraw { s with entropyBuf := s.entropyBuf ++ ws, inputs := ins, requests := s.requests + ws.length }) ∨
    (∃ ws ins, ws.length ≤ n ∧ WordsArrive s.requests s.inputs ws ins ∧ commandsOf ins = commandsOf s.inputs ∧
      awaitWords n s =
        { s with entropyBuf := s.entropyBuf ++ ws, inputs := ins, requests := s.requests + ws.length }) := by
  induction n generalizing s with
  | zero =>
    unfold awaitWords
    split
    next v rest h => exact .inl ⟨[v], rest, rfl, ⟨_, h, rfl⟩, wake_commandsOf h, rfl⟩
    next rest h => exact .inr (.inl ⟨[], _, rest, le_rfl, rfl, h, wake_commandsOf h, by simp⟩)
    next => exact .inr (.inr ⟨[], s.inputs, le_rfl, rfl, rfl, by simp⟩)
    next => exact .inr (.inr ⟨[], s.inputs, le_rfl, rfl, rfl, by simp⟩)
  | succ n ih =>
    unfold awaitWords
    split
    next v rest h =>
      have hc := wake_commandsOf h
      have e : ∀ k, s.requests + 1 + k = s.requests + (k + 1) := by omega
      rcases ih (s.collect v rest).request with
        ⟨ws, ins, hl, hw, hi, he⟩ | ⟨ws, mid, ins, hl, hw, hf, hi, he⟩ | ⟨ws, ins, hl, hw, hi, he⟩
      · refine .inl ⟨v :: ws, ins, by simp [hl], ⟨_, h, hw⟩, by simpa [hc] using hi, ?_⟩
        simp [he, e]
      · refine .inr (.inl ⟨v :: ws, mid, ins, by simp [hl], ⟨_, h, hw⟩, by simpa [e] using hf, by simpa [hc] using hi, ?_⟩)
        simp [he, e]
      · refine .inr (.inr ⟨v :: ws, ins, by simp [hl], ⟨_, h, hw⟩, by simpa [hc] using hi, ?_⟩)
        simp [he, e]
    next rest h => exact .inr (.inl ⟨[], _, rest, by simp, rfl, h, wake_commandsOf h, by simp⟩)
    next => exact .inr (.inr ⟨[], s.inputs, by simp, rfl, rfl, by simp⟩)
    next => exact .inr (.inr ⟨[], s.inputs, by simp, rfl, rfl, by simp⟩)

/-- One word taken, more to come. -/
theorem awaitWords_word {n : Nat} {s : State} {v : Word} {rest : List Input}
    (h : wake s.requests s.inputs = some (.answer (.word v), rest)) :
    awaitWords (n + 1) s = awaitWords n (s.collect v rest).request := by
  rw [awaitWords, h]

/-- The last word taken. -/
theorem awaitWords_last {s : State} {v : Word} {rest : List Input}
    (h : wake s.requests s.inputs = some (.answer (.word v), rest)) :
    awaitWords 0 s = finishDraw (s.collect v rest) := by
  rw [awaitWords, h]

/-- A Fail taken. -/
theorem awaitWords_fail {n : Nat} {s : State} {rest : List Input}
    (h : wake s.requests s.inputs = some (.answer .fail, rest)) :
    awaitWords n s = failDraw { s with inputs := rest } := by
  rw [awaitWords, h]

/-- No answer there. -/
theorem awaitWords_wait {n : Nat} {s : State} (h : ∀ a rest, wake s.requests s.inputs ≠ some (.answer a, rest)) :
    awaitWords n s = s := by
  unfold awaitWords
  split
  next v rest e => exact absurd e (h _ _)
  next rest e => exact absurd e (h _ _)
  next => rfl
  next => rfl

/-- Events that wake the core alike make the loop do alike (R190). -/
theorem awaitWords_inputs {n : Nat} {s : State} {ins : List Input}
    (h : wake s.requests s.inputs = wake s.requests ins) (ha : ∃ a rest, wake s.requests s.inputs = some (.answer a, rest)) :
    awaitWords n s = awaitWords n { s with inputs := ins } := by
  obtain ⟨a, rest, ha⟩ := ha
  have ha' : wake s.requests ins = some (.answer a, rest) := h ▸ ha
  cases a with
  | fail => rw [awaitWords_fail ha, awaitWords_fail (s := { s with inputs := ins }) ha']
  | word v =>
    cases n with
    | zero => rw [awaitWords_last ha, awaitWords_last (s := { s with inputs := ins }) ha']; rfl
    | succ n => rw [awaitWords_word ha, awaitWords_word (s := { s with inputs := ins }) ha']; rfl

/-- A SEED_DRAW goes on with as many further requests as its buffer lacks words beyond the next. -/
theorem resumeDraw_eq {s : State} {n : Nat} (h : s.entropyBuf.length + n + 1 = drawCount) :
    resumeDraw s = awaitWords n s := by
  have : drawCount - 1 - s.entropyBuf.length = n := by omega
  rw [resumeDraw, this]

/-! ### One step -/

/-- Everything a step that answers a next state can do. -/
theorem step_cases {s t : State} (h : step s = .next t) :
    (t = s) ∨
    (s.activity = .idle ∧ ∃ n a rest, s.inputs = .answer n a :: rest ∧ t = { s with inputs := rest }) ∨
    (∃ rest, t = s.enterReset rest ∧
      ((s.activity = .idle ∧ (s.inputs = .reset :: rest ∨ ∃ c, s.inputs = .commandCutByReset c :: rest)) ∨
       (s.activity = .busy ∧ wake s.requests s.inputs = some (.reset, rest)))) ∨
    (s.activity = .idle ∧ ∃ c rest, s.inputs = .command c :: rest ∧
      (∃ why, decode c = .error (.illegal why)) ∧ t = (s.accept rest).raise .illegal) ∨
    (s.activity = .idle ∧ ∃ c rest i, s.inputs = .command c :: rest ∧ decode c = .ok i ∧
      exec i (s.accept rest) = .next t) ∨
    (s.activity = .busy ∧ (∃ a rest, wake s.requests s.inputs = some (.answer a, rest)) ∧ t = resumeDraw s) := by
  unfold step nextEvent at h
  rcases ha : s.activity with _ | _
  · simp only [ha] at h
    unfold idleEvent at h
    rcases hi : s.inputs with _ | ⟨e, rest⟩
    · simp only [hi] at h; cases h; exact .inl rfl
    · cases e with
      | command c =>
        simp only [hi, takeCommand] at h
        rcases hd : decode c with e | i
        · cases e with
          | illegal why =>
            simp only [hd, Host.Outcome.next.injEq] at h
            exact .inr (.inr (.inr (.inl ⟨rfl, c, rest, rfl, ⟨why, hd⟩, h.symm⟩)))
          | beatCount => simp only [hd] at h; cases h
        · simp only [hd] at h
          exact .inr (.inr (.inr (.inr (.inl ⟨rfl, c, rest, i, rfl, hd, h⟩))))
      | commandCutByReset c =>
        simp only [hi, Host.Outcome.next.injEq] at h
        exact .inr (.inr (.inl ⟨rest, h.symm, .inl ⟨rfl, .inr ⟨c, rfl⟩⟩⟩))
      | answer n a =>
        simp only [hi, Host.Outcome.next.injEq] at h
        exact .inr (.inl ⟨rfl, n, a, rest, rfl, by rw [← h, ha]⟩)
      | reset =>
        simp only [hi, Host.Outcome.next.injEq] at h
        exact .inr (.inr (.inl ⟨rest, h.symm, .inl ⟨rfl, .inl rfl⟩⟩))
  · simp only [ha] at h
    unfold busyEvent at h
    rcases hw : wake s.requests s.inputs with _ | ⟨w, rest⟩
    · simp only [hw, Host.Outcome.next.injEq] at h; exact .inl h.symm
    · cases w with
      | answer a =>
        simp only [hw, Host.Outcome.next.injEq] at h
        exact .inr (.inr (.inr (.inr (.inr ⟨rfl, ⟨a, rest, rfl⟩, h.symm⟩))))
      | reset =>
        simp only [hw, Host.Outcome.next.injEq] at h
        exact .inr (.inr (.inl ⟨rest, h.symm, .inr ⟨rfl, rfl⟩⟩))

end Sys2Proof.Machine
end

