-- ==== Sys2Proof/Laws/Jump.lean ====
section
/-! SUPPORT. Repeated steps, and what one iteration of the jump loop keeps: the map composed so far and the map the next bit
stands for (R141). -/

namespace Sys2Proof.Machine

open Sys2Proof

theorem laneSteps_zero (l : Lane) : laneSteps 0 l = l := rfl

theorem laneSteps_succ (n : Nat) (l : Lane) : laneSteps (n + 1) l = laneSteps n (laneStep l) := by simp only [laneSteps]

/-- Steps compose (R144). -/
theorem laneSteps_add (m n : Nat) (l : Lane) : laneSteps (m + n) l = laneSteps n (laneSteps m l) := by
  induction m generalizing l with
  | zero => rw [Nat.zero_add, laneSteps_zero]
  | succ m ih => rw [Nat.succ_add, laneSteps_succ, laneSteps_succ, ih]

/-- Steps write no increment (R22, R120). -/
theorem laneSteps_incHi (n : Nat) (l : Lane) : (laneSteps n l).incHi = l.incHi := by
  induction n generalizing l with
  | zero => rw [laneSteps_zero]
  | succ n ih => rw [laneSteps_succ, ih, laneStep_incHi]

theorem laneSteps_inc (n : Nat) (l : Lane) : (laneSteps n l).inc = l.inc := by
  rw [← Lane.incHi_eq_iff, laneSteps_incHi]

/-- A jump writes no increment (R143). -/
theorem laneJump_incHi (l : Lane) (d : Word) : (laneJump l d).incHi = l.incHi := by
  simp only [laneJump, Lane.setState_incHi]

theorem laneJump_state (l : Lane) (d : Word) :
    (laneJump l d).state = (jumpUnit l d).accMult * l.state + (jumpUnit l d).accPlus := by
  simp only [laneJump, Lane.setState_state]

theorem JumpUnit.run_zero (j : JumpUnit) : JumpUnit.run 0 j = j := rfl

/-- The loop stops when nothing of the count is left (R141). -/
theorem JumpUnit.run_done (n : Nat) {j : JumpUnit} (h : j.rem = 0#64) : JumpUnit.run n j = j := by
  cases n with
  | zero => rfl
  | succ n => rw [JumpUnit.run, if_pos h]

/-- The loop goes on while something is left (R141). -/
theorem JumpUnit.run_more (n : Nat) {j : JumpUnit} (h : j.rem ≠ 0#64) :
    JumpUnit.run (n + 1) j = JumpUnit.run n j.iterate := by rw [JumpUnit.run, if_neg h]

theorem JumpUnit.iterate_rem (j : JumpUnit) : j.iterate.rem = j.rem >>> 1 := by rw [JumpUnit.iterate]

end Sys2Proof.Machine
end

