-- ==== Sys2Proof/Laws/Seeding.lean ====
section
/-! SUPPORT. What the seeding sub-operations and SEED_DRAW's ends leave, said once. -/

namespace Sys2Proof.Machine

open Sys2Proof

/-- What the increment register keeps of `(initSeq << 1) | 1` (R100, R101). -/
theorem seedInc_hi (q : Word) : ((q <<< 1) ||| 1#64).extractLsb' 1 63 = q.setWidth 63 := by
  apply BitVec.eq_of_getLsbD_eq
  intro k hk
  have h : k + 1 < 64 := by omega
  simp only [BitVec.getLsbD_extractLsb', BitVec.getLsbD_or, BitVec.getLsbD_shiftLeft, BitVec.getLsbD_one,
    BitVec.getLsbD_setWidth, Nat.add_comm 1 k]
  simp [hk, h]

/-- The lane LaneSeed leaves has the increment its formula names (R100). -/
theorem laneSeed_incHi (v q : Word) (l : Lane) : (laneSeed v q l).incHi = q.setWidth 63 := by
  rw [← seedInc_hi q]
  simp only [laneSeed, laneStep_incHi, Lane.setState_incHi, Lane.setInc_incHi]

/-- LaneSeed in closed form (R102): the lane before it does not matter. -/
theorem laneSeed_eq_seededLane (v q : Word) (l : Lane) : laneSeed v q l = seededLane v q := by
  have hinc : (q <<< 1) ||| 1#64 ||| 1#64 = (q <<< 1) ||| 1#64 := by rw [BitVec.or_assoc, BitVec.or_self]
  apply Lane.eq_of_fields
  · simp only [laneSeed, laneStep_state, laneStep_inc, Lane.setState_state, Lane.setState_inc, Lane.setInc_state,
      Lane.inc_setInc, hinc, BitVec.mul_zero, BitVec.zero_add]
    rfl
  · rw [laneSeed_incHi]; rfl

/-- The tie-break compares bits 62..0 (R103). -/
theorem and_tieMask_eq_iff (a b : Word) : a &&& tieMask = b &&& tieMask ↔ a.setWidth 63 = b.setWidth 63 := by
  have hm : ∀ k, tieMask.getLsbD k = decide (k < 63) := by
    intro k
    by_cases h : k < 64
    · have : ∀ j : Fin 64, tieMask.getLsbD j.val = decide (j.val < 63) := by decide
      exact this ⟨k, h⟩
    · have h1 : ¬ k < 63 := by omega
      simp [BitVec.getLsbD_of_ge tieMask k (by omega), h1]
  constructor
  · intro h
    apply BitVec.eq_of_getLsbD_eq
    intro k hk
    have := congrArg (fun v => BitVec.getLsbD v k) h
    simpa [BitVec.getLsbD_and, hm, hk] using this
  · intro h
    apply BitVec.eq_of_getLsbD_eq
    intro k _
    have := congrArg (fun v => BitVec.getLsbD v k) h
    simp only [BitVec.getLsbD_setWidth] at this
    by_cases h1 : k < 63
    · simpa [BitVec.getLsbD_and, hm, h1] using this
    · simp [BitVec.getLsbD_and, hm, h1]

/-- The tie-break in terms of bits 62..0 (R103). -/
theorem tieBreak_eq_laneBSeq (a b : Word) : tieBreak a b = laneBSeq a b := by
  simp only [tieBreak, laneBSeq, and_tieMask_eq_iff]

/-- GenSeed (R105), every field. -/
theorem genSeed_eq (w : SeedWords) (s : State) :
    genSeed w s = { s with
      laneA := seededLane w.seed1 w.seq1
      laneB := seededLane w.seed2 (laneBSeq w.seq1 w.seq2)
      seeded := true } := by
  rw [genSeed, laneSeed_eq_seededLane, laneSeed_eq_seededLane, tieBreak_eq_laneBSeq]; rfl

/-- SEED_DRAW's good end (R109), every field. -/
theorem finishDraw_eq (s : State) :
    finishDraw s = { s with
      laneA := seededLane (SeedWords.ofBuffer s.entropyBuf).seed1 (SeedWords.ofBuffer s.entropyBuf).seq1
      laneB := seededLane (SeedWords.ofBuffer s.entropyBuf).seed2
        (laneBSeq (SeedWords.ofBuffer s.entropyBuf).seq1 (SeedWords.ofBuffer s.entropyBuf).seq2)
      seeded := true
      activity := .idle
      entropyBuf := []
      responses := { code := .ok, result := 0#64 } :: s.responses } := by
  rw [finishDraw, genSeed_eq]; rfl

/-- SEED_DRAW's bad end (R110), every field. -/
theorem failDraw_eq (s : State) :
    failDraw s = { s with
      entFail := true
      activity := .idle
      entropyBuf := []
      responses := { code := .entropy, result := 0#64 } :: s.responses } := rfl

/-- SEED_DRAW's begin (R109), every field. -/
theorem beginDraw_eq (s : State) :
    beginDraw s = { s with activity := .busy, entropyBuf := [], requests := s.requests + 1 } := rfl

/-- Increments made from sequence ids that differ in bits 62..0 differ (R101). -/
theorem seededLane_inc_ne {v v' q q' : Word} (h : q.setWidth 63 ≠ q'.setWidth 63) :
    (seededLane v q).inc ≠ (seededLane v' q').inc := by
  intro e
  exact h ((Lane.incHi_eq_iff _ _).mpr e)

end Sys2Proof.Machine
end

