-- ==== Sys2Proof/Laws/Exec.lean ====
section
/-! SUPPORT. What `exec` can do, said once, and what a SEED_DRAW that waited can do when it goes on. -/

namespace Sys2Proof.Machine

open Sys2Proof

/-- Everything `exec` can do when it answers a next state: a command completes with OK, having seeded the lanes, stepped
them, jumped them or left them; or SEED_DRAW ends with ENTROPY; or SEED_DRAW waits. -/
theorem exec_cases {i : Instr} {s t : State} (h : exec i s = .next t) :
    (∃ v, t.responses = { code := .ok, result := v } :: s.responses ∧ t.activity = .idle ∧
      commandsOf t.inputs = commandsOf s.inputs ∧ (t.entropyBuf = s.entropyBuf ∨ t.entropyBuf = []) ∧
      t.entFail = s.entFail ∧
      ((v = 0#64 ∧ t.seeded = true ∧ Instr.Seeding i ∧
          ∃ a b c d, SeedsWith i s a b c d ∧ t.laneA = seededLane a c ∧ t.laneB = seededLane b (laneBSeq c d)) ∨
       (t.seeded = s.seeded ∧ ¬ Instr.Seeding i ∧
          ((t.laneA = laneStep s.laneA ∧ t.laneB = laneStep s.laneB) ∨
           (∃ d, t.laneA = laneJump s.laneA d ∧ t.laneB = laneJump s.laneB d) ∨
           (t.laneA = s.laneA ∧ t.laneB = s.laneB))))) ∨
    (i = .seedDraw ∧ t.laneA = s.laneA ∧ t.laneB = s.laneB ∧ t.seeded = s.seeded ∧
      commandsOf t.inputs = commandsOf s.inputs ∧
      ((t.responses = { code := .entropy, result := 0#64 } :: s.responses ∧ t.activity = .idle ∧
          t.entropyBuf = [] ∧ t.entFail = true) ∨
       (t.responses = s.responses ∧ t.activity = .busy ∧ t.entFail = s.entFail ∧
          t.entropyBuf.length < drawCount ∧ t.requests = s.requests + 1 + t.entropyBuf.length))) := by
  have notSeeding : ∀ j : Instr, (j.command ≠ .seed ∧ j.command ≠ .seedBytes ∧ j.command ≠ .seedDraw) →
      ¬ Instr.Seeding j := fun j hj hs => by rcases hs with e | e | e <;> simp [e] at hj
  cases i with
  | seed a b c d =>
    simp only [exec, execSeed, genSeed_eq, Host.Outcome.next.injEq] at h
    subst h
    exact .inl ⟨_, rfl, rfl, rfl, .inl rfl, rfl,
      .inl ⟨rfl, rfl, .inl rfl, a, b, c, d, .inl ⟨.inl rfl, rfl⟩, rfl, rfl⟩⟩
  | seedBytes block =>
    simp only [exec, execSeedBytes, genSeed_eq] at h
    split at h
    · simp only [Host.Outcome.next.injEq] at h
      subst h
      exact .inl ⟨_, rfl, rfl, rfl, .inl rfl, rfl,
        .inl ⟨rfl, rfl, .inr (.inl rfl), _, _, _, _, .inl ⟨.inr rfl, rfl⟩, rfl, rfl⟩⟩
    · cases h
  | seedDraw =>
    simp only [exec, execSeedDraw, Host.Outcome.next.injEq] at h
    subst h
    rcases awaitWords_cases (drawCount - 1) (beginDraw s) with
      ⟨ws, ins, hl, hw, hc, he⟩ | ⟨ws, mid, ins, hl, hw, hf, hc, he⟩ | ⟨ws, ins, hl, hw, hc, he⟩
    · obtain ⟨a, b, c, d, rfl⟩ := List.length_eq_four.mp hl
      rw [he, finishDraw_eq]
      exact .inl ⟨_, rfl, rfl, hc, .inr rfl, rfl,
        .inl ⟨rfl, rfl, .inr (.inr rfl), a, b, c, d, .inr ⟨rfl, ins, hw⟩, rfl, rfl⟩⟩
    · rw [he, failDraw_eq]
      exact .inr ⟨rfl, rfl, rfl, rfl, hc, .inl ⟨rfl, rfl, rfl, rfl⟩⟩
    · rw [he]
      refine .inr ⟨rfl, rfl, rfl, rfl, hc, .inr ⟨rfl, rfl, rfl, ?_, ?_⟩⟩
      · simp only [beginDraw_eq, drawCount, List.nil_append] at *
        omega
      · simp only [beginDraw_eq, List.nil_append]
  | next =>
    simp only [exec, execNext, Host.Outcome.next.injEq] at h
    subst h
    exact .inl ⟨_, rfl, rfl, rfl, .inl rfl, rfl, .inr ⟨rfl, notSeeding _ (by simp [Instr.command]), .inl ⟨rfl, rfl⟩⟩⟩
  | advance d =>
    simp only [exec, execAdvance, Host.Outcome.next.injEq] at h
    subst h
    exact .inl ⟨_, rfl, rfl, rfl, .inl rfl, rfl, .inr ⟨rfl, notSeeding _ (by simp [Instr.command]), .inr (.inl ⟨d, rfl, rfl⟩)⟩⟩
  | readState r =>
    simp only [exec, execReadState, Host.Outcome.next.injEq] at h
    subst h
    exact .inl ⟨_, rfl, rfl, rfl, .inl rfl, rfl, .inr ⟨rfl, notSeeding _ (by simp [Instr.command]), .inr (.inr ⟨rfl, rfl⟩)⟩⟩
  | readStatus =>
    simp only [exec, execReadStatus, Host.Outcome.next.injEq] at h
    subst h
    exact .inl ⟨_, rfl, rfl, rfl, .inl rfl, rfl, .inr ⟨rfl, notSeeding _ (by simp [Instr.command]), .inr (.inr ⟨rfl, rfl⟩)⟩⟩

/-- Everything a SEED_DRAW that waited can do when an answer comes: end with OK, end with ENTROPY, or wait for the next. -/
theorem resumeDraw_cases (s : State) :
    commandsOf (resumeDraw s).inputs = commandsOf s.inputs ∧
    (((resumeDraw s).responses = { code := .ok, result := 0#64 } :: s.responses ∧ (resumeDraw s).activity = .idle ∧
        (resumeDraw s).entropyBuf = [] ∧ (resumeDraw s).entFail = s.entFail ∧ (resumeDraw s).seeded = true ∧
        ∃ a b c d, (s.entropyBuf.length < drawCount → ∃ ws rest, ws ≠ [] ∧ s.entropyBuf ++ ws = [a, b, c, d] ∧
            WordsArrive s.requests s.inputs ws rest) ∧
          (resumeDraw s).laneA = seededLane a c ∧ (resumeDraw s).laneB = seededLane b (laneBSeq c d)) ∨
     ((resumeDraw s).laneA = s.laneA ∧ (resumeDraw s).laneB = s.laneB ∧ (resumeDraw s).seeded = s.seeded ∧
        (((resumeDraw s).responses = { code := .entropy, result := 0#64 } :: s.responses ∧
            (resumeDraw s).activity = .idle ∧ (resumeDraw s).entropyBuf = [] ∧ (resumeDraw s).entFail = true) ∨
         ((resumeDraw s).responses = s.responses ∧ (resumeDraw s).activity = s.activity ∧
            (resumeDraw s).entFail = s.entFail ∧
            ∃ n, n ≤ drawCount - 1 - s.entropyBuf.length ∧ (resumeDraw s).requests = s.requests + n ∧
              (resumeDraw s).entropyBuf.length = s.entropyBuf.length + n)))) := by
  unfold resumeDraw
  rcases awaitWords_cases (drawCount - 1 - s.entropyBuf.length) s with
    ⟨ws, ins, hl, hw, hc, he⟩ | ⟨ws, mid, ins, hl, hw, hf, hc, he⟩ | ⟨ws, ins, hl, hw, hc, he⟩
  · rw [he, finishDraw_eq]
    refine ⟨hc, .inl ⟨rfl, rfl, rfl, rfl, rfl, _, _, _, _, fun hb => ?_, rfl, rfl⟩⟩
    have h4 : (s.entropyBuf ++ ws).length = 4 := by
      simp only [drawCount, List.length_append] at *
      omega
    have hne : ws ≠ [] := fun h => by simp [h] at hl
    obtain ⟨a, b, c, d, e⟩ := List.length_eq_four.mp h4
    refine ⟨ws, ins, hne, ?_, hw⟩
    simp only [e]
    rfl
  · rw [he, failDraw_eq]
    exact ⟨hc, .inr ⟨rfl, rfl, rfl, .inl ⟨rfl, rfl, rfl, rfl⟩⟩⟩
  · rw [he]
    exact ⟨hc, .inr ⟨rfl, rfl, rfl, .inr ⟨rfl, rfl, rfl, ws.length, hl, rfl, List.length_append⟩⟩⟩

/-- Well-formed commands always answer a next state (R181). -/
theorem exec_of_wf {i : Instr} (s : State) (h : i.wf = true) : ∃ t, exec i s = .next t := by
  cases i with
  | seedBytes block =>
    have hb : block.length = blockBytes := by simpa only [Instr.wf, beq_iff_eq] using h
    simp only [exec, execSeedBytes, hb, if_true]
    exact ⟨_, rfl⟩
  | seed _ _ _ _ => exact ⟨_, rfl⟩
  | seedDraw => exact ⟨_, rfl⟩
  | next => exact ⟨_, rfl⟩
  | advance _ => exact ⟨_, rfl⟩
  | readState _ => exact ⟨_, rfl⟩
  | readStatus => exact ⟨_, rfl⟩

/-- One NEXT more (R144). -/
theorem afterNexts_succ (n : Nat) (s : State) :
    afterNexts (n + 1) s =
      afterNexts n ((s.setLanes (laneStep s.laneA) (laneStep s.laneB)).respond .ok
        (permute s.laneA.state ++ permute s.laneB.state)) := by
  simp only [afterNexts, exec, execNext, laneNext]

/-- The STATUS bits bear on nothing in a SEED_DRAW but themselves (R28, R29). -/
theorem awaitWords_status (n : Nat) (s : State) (b e : Bool) :
    ∃ b' e', awaitWords n { s with seeded := b, entFail := e } =
      { awaitWords n s with seeded := b', entFail := e' } := by
  induction n generalizing s with
  | zero =>
    rcases h : wake s.requests s.inputs with _ | ⟨(v | _) | _, rest⟩
    · rw [awaitWords_wait (by simp [h]), awaitWords_wait (by simp [h])]; exact ⟨b, e, rfl⟩
    · rw [awaitWords_last h, awaitWords_last (s := { s with seeded := b, entFail := e }) h, finishDraw_eq, finishDraw_eq]
      exact ⟨true, e, rfl⟩
    · rw [awaitWords_fail h, awaitWords_fail (s := { s with seeded := b, entFail := e }) h, failDraw_eq, failDraw_eq]
      exact ⟨b, true, rfl⟩
    · rw [awaitWords_wait (by simp [h]), awaitWords_wait (by simp [h])]; exact ⟨b, e, rfl⟩
  | succ n ih =>
    rcases h : wake s.requests s.inputs with _ | ⟨(v | _) | _, rest⟩
    · rw [awaitWords_wait (by simp [h]), awaitWords_wait (by simp [h])]; exact ⟨b, e, rfl⟩
    · rw [awaitWords_word h, awaitWords_word (s := { s with seeded := b, entFail := e }) h]
      exact ih (s.collect v rest).request
    · rw [awaitWords_fail h, awaitWords_fail (s := { s with seeded := b, entFail := e }) h, failDraw_eq, failDraw_eq]
      exact ⟨b, true, rfl⟩
    · rw [awaitWords_wait (by simp [h]), awaitWords_wait (by simp [h])]; exact ⟨b, e, rfl⟩

/-! ### A SEED_DRAW and the words that reach it -/

/-- All the words it lacks arrive: it ends as `finishDraw` says (R109). -/
theorem awaitWords_all {n : Nat} (ws : List Word) (s : State) {rest : List Input} (hl : ws.length = n + 1)
    (h : WordsArrive s.requests s.inputs ws rest) :
    awaitWords n s =
      finishDraw { s with entropyBuf := s.entropyBuf ++ ws, inputs := rest, requests := s.requests + n } := by
  induction n generalizing ws s with
  | zero =>
    obtain ⟨v, rfl⟩ := List.length_eq_one_iff.mp hl
    obtain ⟨mid, h1, rfl⟩ := h
    rw [awaitWords_last h1]
    rfl
  | succ n ih =>
    rcases ws with _ | ⟨v, ws⟩
    · cases hl
    · obtain ⟨mid, h1, h2⟩ := h
      have e : s.requests + 1 + n = s.requests + (n + 1) := by omega
      rw [awaitWords_word h1, ih ws _ (by simpa using hl) h2]
      simp [e]

/-- Some of the words it lacks arrive: it goes on from there (R109). -/
theorem awaitWords_some (ws : List Word) (s : State) {mid : List Input} (n : Nat)
    (h : WordsArrive s.requests s.inputs ws mid) :
    awaitWords (n + ws.length) s =
      awaitWords n
        { s with entropyBuf := s.entropyBuf ++ ws, inputs := mid, requests := s.requests + ws.length } := by
  induction ws generalizing s with
  | nil => cases h; simp
  | cons v ws ih =>
    obtain ⟨mid', h1, h2⟩ := h
    have e : s.requests + 1 + ws.length = s.requests + (ws.length + 1) := by omega
    rw [List.length_cons, ← Nat.add_assoc, awaitWords_word h1, ih _ h2]
    simp [e]

end Sys2Proof.Machine
end

