-- ==== Sys2Proof/Laws/PerInstr.lean ====
section
/-! SUPPORT. Family TableMatch: every instruction's encoded word has the bits that its row of spec/opcode_table.json fixes
(`word & mask = match`). -/

namespace Sys2Proof.Laws.TableMatch

open Sys2Proof

/-- The row's mask and match (spec/opcode_table.json; R67). -/
def row : Instr → BitVec 32 × BitVec 32
  | .seed _ _ _ _ => (0xFFFFFFFF#32, 0x00000001#32)
  | .seedBytes _ => (0xFFFFFFFF#32, 0x00000002#32)
  | .seedDraw => (0xFFFFFFFF#32, 0x00000003#32)
  | .next => (0xFFFFFFFF#32, 0x00000010#32)
  | .advance _ => (0xFFFFFFFF#32, 0x00000020#32)
  | .readState _ => (0xFFFFFCFF#32, 0x00000030#32)
  | .readStatus => (0xFFFFFFFF#32, 0x00000031#32)

/-- The encoded word matches the row. -/
def Statement (i : Instr) : Prop := (encode i).word &&& (row i).1 = (row i).2

theorem seed (a b c d : Word) : Statement (.seed a b c d) := by
  show mkWord 0#2 0x01#8 &&& 0xFFFFFFFF#32 = 0x00000001#32
  decide

theorem seedBytes (block : List Byte) : Statement (.seedBytes block) := by
  show mkWord 0#2 0x02#8 &&& 0xFFFFFFFF#32 = 0x00000002#32
  decide

theorem seedDraw : Statement .seedDraw := by
  show mkWord 0#2 0x03#8 &&& 0xFFFFFFFF#32 = 0x00000003#32
  decide

theorem next : Statement .next := by
  show mkWord 0#2 0x10#8 &&& 0xFFFFFFFF#32 = 0x00000010#32
  decide

theorem advance (d : Word) : Statement (.advance d) := by
  show mkWord 0#2 0x20#8 &&& 0xFFFFFFFF#32 = 0x00000020#32
  decide

theorem readState (r : LaneReg) : Statement (.readState r) := by
  show mkWord r.sel 0x30#8 &&& 0xFFFFFCFF#32 = 0x00000030#32
  cases r <;> decide

theorem readStatus : Statement .readStatus := by
  show mkWord 0#2 0x31#8 &&& 0xFFFFFFFF#32 = 0x00000031#32
  decide

end Sys2Proof.Laws.TableMatch
end

