-- ==== Sys2Proof/Tests/Slice0.lean ====
section
/-! SUPPORT. Tests with expected values from the spec (95_test_vectors.md where named), the WellFormed smoke tests, and, for
every statement with hypotheses, a witness that they can be met together. -/

namespace Sys2Proof.Tests

open Sys2Proof Sys2Proof.Machine

set_option Elab.async false

/-! ### Small states -/

/-- Lane A and lane B of V-SEED-1. -/
def laneA1 : Lane := { state := 0x185706b82c2e03f8#64, incHi := 0x36#63 }
def laneB1 : Lane := { state := 0xe28d1824f4dfb6cc#64, incHi := 0x7fffffffffffffc9#63 }

/-- The core after `SEED 42, 42, 54, 54` (V-SEED-1), IDLE, with these events to come. -/
def seeded1 (ins : List Input) : State where
  laneA := laneA1
  laneB := laneB1
  seeded := true
  entFail := false
  activity := .idle
  entropyBuf := []
  inputs := ins
  responses := []
  requests := 0

/-- An unseeded core whose lanes are all zero but for the hard-wired bits (P5), IDLE. -/
def zero1 (ins : List Input) : State :=
  { seeded1 ins with laneA := { state := 0#64, incHi := 0#63 }, laneB := { state := 0#64, incHi := 0#63 }, seeded := false }

/-- The same, BUSY with a SEED_DRAW that has these words and waits for the next. -/
def busy1 (buf : List Word) (ins : List Input) : State :=
  { zero1 ins with activity := .busy, entropyBuf := buf, requests := buf.length + 1 }

/-- What a next state's lanes and newest response are, for tests. -/
def view (o : Host.Outcome State Fault Refusal) : Option (List Word × Option Response) :=
  match o with
  | .next t => some ([t.x .stateA, t.x .incA, t.x .stateB, t.x .incB], t.responses.head?)
  | .fault _ => none
  | .refused _ => none

/-- What a next state's STATUS, activity and request count are, for tests. -/
def viewPort (o : Host.Outcome State Fault Refusal) : Option (Word × Activity × Nat × List Word) :=
  match o with
  | .next t => some (t.status, t.activity, t.requests, t.entropyBuf)
  | .fault _ => none
  | .refused _ => none

/-! ### WellFormed -/

theorem test_wf_refuses_short_block : (Instr.seedBytes (List.replicate 31 0#8)).wf = false := by decide
theorem test_wf_refuses_long_block : (Instr.seedBytes (List.replicate 33 0#8)).wf = false := by decide
theorem test_wf_accepts_block : (Instr.seedBytes (List.replicate 32 0#8)).wf = true := by decide

/-! ### Decoding: words written out from the fields of R61 and the opcodes of R67, RSV, SEL, OP -/

theorem test_decode_seed :
    decode { word := 0b0000000000000000000000_00_00000001#32, beats := [1#64, 2#64, 3#64, 4#64] } =
      .ok (.seed 1#64 2#64 3#64 4#64) := by decide
theorem test_decode_seedBytes :
    decode { word := 0b0000000000000000000000_00_00000010#32,
             beats := [0x0706050403020100#64, 0x0f0e0d0c0b0a0908#64, 0x1716151413121110#64, 0x1f1e1d1c1b1a1918#64] } =
      .ok (.seedBytes ((List.range 32).map (BitVec.ofNat 8))) := by decide
theorem test_decode_seedDraw :
    decode { word := 0b0000000000000000000000_00_00000011#32, beats := [] } = .ok .seedDraw := by decide
theorem test_decode_next :
    decode { word := 0b0000000000000000000000_00_00010000#32, beats := [] } = .ok .next := by decide
theorem test_decode_advance :
    decode { word := 0b0000000000000000000000_00_00100000#32, beats := [0xfffffffffffffffb#64] } =
      .ok (.advance 0xfffffffffffffffb#64) := by decide
theorem test_decode_readState_0 :
    decode { word := 0b0000000000000000000000_00_00110000#32, beats := [] } = .ok (.readState .stateA) := by decide
theorem test_decode_readState_1 :
    decode { word := 0b0000000000000000000000_01_00110000#32, beats := [] } = .ok (.readState .incA) := by decide
theorem test_decode_readState_2 :
    decode { word := 0b0000000000000000000000_10_00110000#32, beats := [] } = .ok (.readState .stateB) := by decide
theorem test_decode_readState_3 :
    decode { word := 0b0000000000000000000000_11_00110000#32, beats := [] } = .ok (.readState .incB) := by decide
theorem test_decode_readStatus :
    decode { word := 0b0000000000000000000000_00_00110001#32, beats := [] } = .ok .readStatus := by decide

/-- V-DEC: the illegal words. -/
theorem test_decode_illegal :
    [0x00000000#32, 0x00000004#32, 0x00000110#32, 0x00000410#32, 0x80000010#32, 0x00000430#32, 0x00000131#32,
     0x000000ff#32, 0xffffffff#32].all (fun w => match decodeWord w with | .ok _ => false | .error _ => true) = true := by
  decide

/-- The opcode table's numbering: operand beats of zeros above the command word, and beats that are given. -/
theorem test_tableWord_seed : decodeTableWord 32 0x00000001 = some (.seed 0#64 0#64 0#64 0#64) := by decide
theorem test_tableWord_advance_beat : decodeTableWord 96 (0x00000020 + 5 * 2 ^ 32) = some (.advance 5#64) := by decide
theorem test_tableWord_illegal : decodeTableWord 32 0x00000110 = none := by decide

/-! ### SEED -/

/-- V-SEED-1. -/
theorem test_seed_1 :
    view (exec (.seed 42#64 42#64 54#64 54#64) (zero1 [])) =
      some ([0x185706b82c2e03f8#64, 0x6d#64, 0xe28d1824f4dfb6cc#64, 0xffffffffffffff93#64],
        some { code := .ok, result := 0#64 }) := by decide +kernel

/-- V-SEED-5: bit 63 of seq2 does not stop the tie-break. -/
theorem test_seed_5 :
    view (exec (.seed 42#64 42#64 54#64 0x8000000000000036#64) (seeded1 [])) =
      some ([0x185706b82c2e03f8#64, 0x6d#64, 0xe28d1824f4dfb6cc#64, 0xffffffffffffff93#64],
        some { code := .ok, result := 0#64 }) := by decide +kernel

/-! ### SEED_BYTES -/

/-- V-BYTES-5: the byte order, and a tie-break that does not fire. -/
theorem test_seedBytes_5 :
    view (exec (.seedBytes ((List.range 32).map (BitVec.ofNat 8))) (zero1 [])) =
      some ([0x08f143c28b7aadee#64, 0x2e2c2a2826242221#64, 0x8929cd67f1b2e236#64, 0x3e3c3a3836343231#64],
        some { code := .ok, result := 0#64 }) := by decide +kernel

/-- V-BYTES-3: 32 zero bytes seed like `SEED 0, 0, 0, 0` (V-SEED-2). -/
theorem test_seedBytes_3 :
    view (exec (.seedBytes (List.replicate 32 0#8)) (seeded1 [])) =
      some ([0x5851f42d4c957f2e#64, 1#64, 0xa7ae0bd2b36a80d2#64, 0xffffffffffffffff#64],
        some { code := .ok, result := 0#64 }) := by decide +kernel

/-! ### SEED_DRAW -/

/-- P4, command 4 (after command 1's three requests and its failure): four words, the fourth behind a waiting command. -/
theorem test_seedDraw_words :
    viewPort (exec .seedDraw
      { zero1 [.answer 4 (.word 0x2a#64), .answer 5 (.word 0x2a#64), .answer 6 (.word 0x36#64),
          .command { word := 0x00000010#32, beats := [] }, .answer 7 (.word 0x36#64)] with entFail := true, requests := 3 }) =
      some (3#64, .idle, 7, []) := by decide +kernel

/-- P4, command 1: Word(7), Word(8), Fail. -/
theorem test_seedDraw_fail :
    viewPort (exec .seedDraw (zero1 [.answer 1 (.word 7#64), .answer 2 (.word 8#64), .answer 3 .fail])) =
      some (2#64, .idle, 3, []) := by decide +kernel

/-! ### NEXT -/

/-- V-NEXT, from the V-SEED-1 state. -/
theorem test_next_1 :
    view (exec .next (seeded1 [])) =
      some ([0x2b47fed88766bb05#64, 0x6d#64, 0x1416164ffbbe556f#64, 0xffffffffffffff93#64],
        some { code := .ok, result := 0xa15c02b71a410f65#64 }) := by decide +kernel

/-- V-PERM: rotations 31, 31 and 0. -/
theorem test_permute :
    [permute 0xffffffffffffffff#64, permute 0xfedcba9876543210#64, permute 0x0123456789abcdef#64] =
      [0xfff00001#32, 0xb7214bd7#32, 0x2468a5eb#32] := by decide +kernel

/-! ### ADVANCE -/

/-- V-JUMP, delta = 5. -/
theorem test_advance_5 :
    view (exec (.advance (u64 5)) (seeded1 [])) =
      some ([0x8303569fbe80c471#64, 0x6d#64, 0x6b418b25f4d36b43#64, 0xffffffffffffff93#64],
        some { code := .ok, result := 0#64 }) := by decide +kernel

/-- V-JUMP, delta = -0x123456789abcdef0. -/
theorem test_advance_negative :
    view (exec (.advance (u64 (-0x123456789abcdef0))) (seeded1 [])) =
      some ([0x88d014d30539b7e8#64, 0x6d#64, 0xfe3a22fa84aebbdc#64, 0xffffffffffffff93#64],
        some { code := .ok, result := 0#64 }) := by decide +kernel

/-- R148: the jump unit's accumulators after `ADVANCE 2^63`. -/
theorem test_jumpUnit_top :
    [(jumpUnit laneA1 0x8000000000000000#64).accMult, (jumpUnit laneA1 0x8000000000000000#64).accPlus,
     (jumpUnit laneB1 0x8000000000000000#64).accMult, (jumpUnit laneB1 0x8000000000000000#64).accPlus] =
      [1#64, 0x8000000000000000#64, 1#64, 0x8000000000000000#64] := by decide +kernel

/-! ### READ_STATE, READ_STATUS -/

/-- V-READ. -/
theorem test_readState_incB :
    view (exec (.readState .incB) (seeded1 [])) =
      some ([0x185706b82c2e03f8#64, 0x6d#64, 0xe28d1824f4dfb6cc#64, 0xffffffffffffff93#64],
        some { code := .ok, result := 0xffffffffffffff93#64 }) := by decide +kernel

/-- R162: 3 after a failed SEED_DRAW and a good seed. -/
theorem test_readStatus_3 :
    (view (exec .readStatus { seeded1 [] with entFail := true })).map Prod.snd =
      some (some { code := .ok, result := 3#64 }) := by decide +kernel

/-! ### Steps -/

/-- P6, event 3: reset while SEED_DRAW holds Word(5) and waits. -/
theorem test_reset_in_seedDraw :
    viewPort (step (busy1 [5#64] [.reset])) = some (0#64, .idle, 2, []) := by decide +kernel

/-- The withFetchWord of an opcode-table word is run by the next step. -/
theorem test_withFetchWord_next :
    view (step ((busy1 [5#64] [.reset]).withFetchWord 32 0x00000010)) =
      some ([1#64, 1#64, 1#64, 1#64], some { code := .ok, result := 0#64 }) := by decide +kernel

/-- R71's example block, and a line with a comment. -/
theorem test_parse_block :
    parseLine "SEED_BYTES 0x2a000000000000002a0000000000000036000000000000003600000000000000".toList =
      some [.seedBytes (bytesOfBeat 42#64 ++ bytesOfBeat 42#64 ++ bytesOfBeat 54#64 ++ bytesOfBeat 54#64)] := by
  decide +kernel
theorem test_parse_advance : parseLine "ADVANCE -6 ; back".toList = some [.advance 0xfffffffffffffffa#64] := by
  decide +kernel

/-! ### Witnesses: the hypotheses of each statement can be met together -/

def nextTx : Transaction := { word := 0x00000010#32, beats := [] }

theorem witness_StepRunsDecodedCommand :
    (seeded1 [.command nextTx]).activity = .idle ∧ (seeded1 [.command nextTx]).inputs = .command nextTx :: [] ∧
    decode nextTx = .ok .next := by decide

/-- Each ground, at the edges of its field. -/
theorem witness_IllegalWordChangesNothing :
    (0x00000410#32).extractLsb' 10 22 ≠ 0#22 ∧ (0x80000010#32).extractLsb' 10 22 ≠ 0#22 ∧
    (0x00000000#32).extractLsb' 0 8 ∉ [0x01#8, 0x02#8, 0x03#8, 0x10#8, 0x20#8, 0x30#8, 0x31#8] ∧
    (0x000000ff#32).extractLsb' 0 8 ∉ [0x01#8, 0x02#8, 0x03#8, 0x10#8, 0x20#8, 0x30#8, 0x31#8] ∧
    ((0x00000131#32).extractLsb' 8 2 ≠ 0#2 ∧ (0x00000131#32).extractLsb' 0 8 ≠ 0x30#8) ∧
    (let t : Transaction := { word := 0x00000410#32, beats := [1#64] }
     (seeded1 [.command t]).activity = .idle ∧ (seeded1 [.command t]).inputs = .command t :: []) := by decide

/-- One beat too many for K = 0, one too few for K = 4, none for K = 1. -/
theorem witness_WrongBeatCountIsRefused :
    decodeWord 0x00000010#32 = .ok .next ∧ [1#64].length ≠ Command.next.beatCount ∧
    decodeWord 0x00000001#32 = .ok .seed ∧ [1#64, 2#64, 3#64].length ≠ Command.seed.beatCount ∧
    decodeWord 0x00000020#32 = .ok .advance ∧ ([] : List Word).length ≠ Command.advance.beatCount ∧
    (seeded1 [.command { word := 0x00000010#32, beats := [1#64] }]).activity = .idle := by decide

theorem witness_DecodeOfEncode : (Instr.seedBytes (List.replicate 32 0xff#8)).wf = true := by decide

theorem witness_EncodeOfDecode : decode nextTx = .ok .next := by decide

theorem witness_SequenceBit63IsDiscarded :
    (0x36#64).extractLsb' 0 63 = (0x8000000000000036#64).extractLsb' 0 63 := by decide

/-- Four words for a core that has made no request yet, with a waiting command and a late answer among them. -/
def fourWords : List Input :=
  [.answer 1 (.word 7#64), .command nextTx, .answer 2 (.word 7#64), .answer 9 .fail, .answer 3 (.word 9#64),
   .answer 4 (.word 9#64), .reset]

theorem witness_WordsArrive_four :
    WordsArrive 1 fourWords [7#64, 7#64, 9#64, 9#64] [.command nextTx, .reset] :=
  ⟨_, rfl, _, rfl, _, rfl, _, rfl, rfl⟩

theorem witness_SeedDrawUsesFourWords :
    WordsArrive ((zero1 fourWords).requests + 1) (zero1 fourWords).inputs [7#64, 7#64, 9#64, 9#64]
      [.command nextTx, .reset] := witness_WordsArrive_four

theorem witness_SeedingMakesIncrementsDistinct :
    (∃ t, exec (.seed 1#64 2#64 3#64 3#64) (zero1 []) = .next t) ∧
    (∃ t, exec (.seedBytes (List.replicate 32 0#8)) (zero1 []) = .next t) ∧
    (∃ t, exec .seedDraw (zero1 fourWords) = .next t ∧
      t.responses = { code := .ok, result := 0#64 } :: (zero1 fourWords).responses) :=
  ⟨⟨_, rfl⟩, ⟨_, rfl⟩, ⟨_, rfl, by decide +kernel⟩⟩

theorem witness_SeedBytesReadsLittleEndianWords : (List.replicate 32 0x80#8).length = 32 := by decide

theorem witness_WrongBlockLengthIsRefused :
    (List.replicate 31 0#8).length ≠ 32 ∧ (List.replicate 33 0#8).length ≠ 32 := by decide

/-- Failure at request 0 and at request 3. -/
theorem witness_SeedDrawFailureSetsEntFailOnly :
    (WordsArrive 1 [.answer 1 .fail] [] [.answer 1 .fail] ∧
      wake (0 + 1 + 0) [.answer 1 .fail] = some (.answer .fail, [])) ∧
    (WordsArrive 1 [.answer 1 (.word 1#64), .answer 2 (.word 2#64), .answer 3 (.word 3#64), .answer 4 .fail]
      [1#64, 2#64, 3#64] [.answer 4 .fail] ∧ [1#64, 2#64, 3#64].length ≤ 3 ∧
      wake (0 + 1 + 3) [.answer 4 .fail] = some (.answer .fail, [])) :=
  ⟨⟨rfl, rfl⟩, ⟨_, rfl, _, rfl, _, rfl, rfl⟩, by decide, rfl⟩

/-- A BUSY core whose outstanding request fails, and one that a word reaches before the failure. -/
theorem witness_SeedDrawFailureSetsEntFailOnly_busy :
    ((busy1 [7#64, 7#64, 9#64] [.answer 4 .fail]).activity = .busy ∧
      WordsArrive (busy1 [7#64, 7#64, 9#64] [.answer 4 .fail]).requests
        (busy1 [7#64, 7#64, 9#64] [.answer 4 .fail]).inputs [] [.answer 4 .fail] ∧
      wake ((busy1 [7#64, 7#64, 9#64] [.answer 4 .fail]).requests + 0) [.answer 4 .fail] =
        some (.answer .fail, [])) ∧
    ((busy1 [7#64] [.answer 2 (.word 7#64), .answer 3 .fail]).activity = .busy ∧
      WordsArrive (busy1 [7#64] [.answer 2 (.word 7#64), .answer 3 .fail]).requests
        (busy1 [7#64] [.answer 2 (.word 7#64), .answer 3 .fail]).inputs [7#64] [.answer 3 .fail] ∧
      wake ((busy1 [7#64] [.answer 2 (.word 7#64), .answer 3 .fail]).requests + 1) [.answer 3 .fail] =
        some (.answer .fail, [])) :=
  ⟨⟨rfl, rfl, rfl⟩, rfl, ⟨_, rfl, rfl⟩, rfl⟩

/-- A BUSY core that two more words reach, the fourth not yet there. -/
theorem witness_SeedDrawWaitsForAnswers_busy :
    (busy1 [7#64] [.answer 2 (.word 7#64), .answer 3 (.word 9#64)]).activity = .busy ∧
    (busy1 [7#64] [.answer 2 (.word 7#64), .answer 3 (.word 9#64)]).entropyBuf.length + [7#64, 9#64].length ≤ 3 ∧
    WordsArrive (busy1 [7#64] [.answer 2 (.word 7#64), .answer 3 (.word 9#64)]).requests
      (busy1 [7#64] [.answer 2 (.word 7#64), .answer 3 (.word 9#64)]).inputs [7#64, 9#64] [] ∧
    ∀ a rest, wake (2 + 2) [] ≠ some (.answer a, rest) :=
  ⟨rfl, by decide, ⟨_, rfl, _, rfl, rfl⟩, fun _ _ h => by simp [wake] at h⟩

/-- Nothing arrives at request 0, and reset arrives at request 3. -/
theorem witness_SeedDrawWaitsForAnswers :
    (WordsArrive 1 [] [] [] ∧ ∀ a rest, wake (0 + 1 + 0) [] ≠ some (.answer a, rest)) ∧
    (WordsArrive 1 [.answer 1 (.word 1#64), .answer 2 (.word 2#64), .answer 3 (.word 3#64), .reset]
      [1#64, 2#64, 3#64] [.reset] ∧ ∀ a rest, wake (0 + 1 + 3) [.reset] ≠ some (.answer a, rest)) :=
  ⟨⟨rfl, fun _ _ h => by simp [wake] at h⟩, ⟨_, rfl, _, rfl, _, rfl, rfl⟩, fun _ _ h => by simp [wake] at h⟩

theorem witness_BusyCoreWaitsForever :
    (busy1 [5#64] [.command nextTx]).activity = .busy ∧
    wake (busy1 [5#64] [.command nextTx]).requests (busy1 [5#64] [.command nextTx]).inputs = none := by decide

/-- No word there yet, and three there. -/
theorem witness_WaitingSeedDrawCompletes :
    ((busy1 [] fourWords).activity = .busy ∧ (busy1 [] fourWords).entropyBuf ++ [7#64, 7#64, 9#64, 9#64] =
        [7#64, 7#64, 9#64, 9#64] ∧
      WordsArrive (busy1 [] fourWords).requests (busy1 [] fourWords).inputs [7#64, 7#64, 9#64, 9#64]
        [.command nextTx, .reset]) ∧
    ((busy1 [7#64, 7#64, 9#64] [.answer 4 (.word 9#64)]).activity = .busy ∧
      (busy1 [7#64, 7#64, 9#64] [.answer 4 (.word 9#64)]).entropyBuf ++ [9#64] = [7#64, 7#64, 9#64, 9#64] ∧
      WordsArrive (busy1 [7#64, 7#64, 9#64] [.answer 4 (.word 9#64)]).requests
        (busy1 [7#64, 7#64, 9#64] [.answer 4 (.word 9#64)]).inputs [9#64] []) :=
  ⟨⟨rfl, rfl, witness_WordsArrive_four⟩, rfl, rfl, ⟨_, rfl, rfl⟩⟩

theorem witness_ReseedingIsHistoryFree :
    (∃ t t', exec (.seed 1#64 2#64 3#64 4#64) (zero1 []) = .next t ∧
      exec (.seed 1#64 2#64 3#64 4#64) (seeded1 []) = .next t') ∧
    (∃ t t', WordsArrive ((zero1 fourWords).requests + 1) (zero1 fourWords).inputs [7#64, 7#64, 9#64, 9#64]
        [.command nextTx, .reset] ∧
      exec .seedDraw (zero1 fourWords) = .next t ∧ exec .seedDraw (seeded1 fourWords) = .next t') ∧
    (∃ t t', WordsArrive (busy1 [] fourWords).requests (busy1 [] fourWords).inputs [7#64, 7#64, 9#64, 9#64]
        [.command nextTx, .reset] ∧
      step (busy1 [] fourWords) = .next t ∧ step (busy1 [7#64, 7#64, 9#64] [.answer 4 (.word 9#64)]) = .next t') :=
  ⟨⟨_, _, rfl, rfl⟩, ⟨_, _, witness_WordsArrive_four, rfl, rfl⟩, ⟨_, _, witness_WordsArrive_four, rfl, rfl⟩⟩

theorem witness_Rotr32IsRotateRight : (0#32).toNat ≤ 31 ∧ (31#32).toNat ≤ 31 := by decide

theorem witness_OutputReadsTheUpperStateBits :
    0 ≤ 18 ∧ 18 ≤ 18 ∧ 19 ≤ 19 ∧ 19 ≤ 31 ∧ 31 ≤ 31 ∧
    (0xf800000007ffffff#64).extractLsb' 27 37 = (0xf800000000000000#64).extractLsb' 27 37 := by decide

theorem witness_LanesAreIndependent :
    ∃ t t' r r', exec .next (seeded1 []) = .next t ∧ exec .next { seeded1 [] with laneB := laneA1 } = .next t' ∧
      t.responses = { code := .ok, result := r } :: (seeded1 []).responses ∧
      t'.responses = { code := .ok, result := r' } :: (seeded1 []).responses ∧
      (seeded1 []).laneA.state = { seeded1 [] with laneB := laneA1 }.laneA.state :=
  ⟨_, _, _, _, rfl, rfl, rfl, rfl, rfl⟩

theorem witness_LanePeriodIsTwoToThe64 : 0 < 1 ∧ 1 < 2 ^ 64 ∧ 0 < 2 ^ 64 - 1 ∧ 2 ^ 64 - 1 < 2 ^ 64 := by decide

theorem witness_exec_next : ∃ t, exec .next (seeded1 []) = .next t := ⟨_, rfl⟩

theorem witness_DrawLagsTheVisibleState : ∃ t, exec .next (zero1 []) = .next t := ⟨_, rfl⟩

theorem witness_JumpCountsWrap :
    1 ≤ 1 ∧ 1 ≤ 2 ^ 63 ∧ 1 ≤ 2 ^ 63 ∧ 2 ^ 63 ≤ 2 ^ 63 ∧ (-5 : Int) % 2 ^ 64 = (2 ^ 64 - 5 : Int) % 2 ^ 64 := by decide

theorem witness_AdvanceEqualsRepeatedNext :
    0 < 2 ^ 64 ∧ 2 ^ 64 - 1 < 2 ^ 64 ∧ ∃ t, exec (.advance (BitVec.ofNat 64 (2 ^ 64 - 1))) (seeded1 []) = .next t :=
  ⟨by decide, by decide, _, rfl⟩

theorem witness_JumpsAdd :
    ∃ t u, exec (.advance 3#64) (seeded1 []) = .next t ∧ exec (.advance 0xfffffffffffffffb#64) t = .next u :=
  ⟨_, _, rfl, rfl⟩

theorem witness_JumpsInvert :
    (∃ t u, exec (.advance 5#64) (seeded1 []) = .next t ∧ exec (.advance (-5#64)) t = .next u) ∧
    (∃ t u, exec (.advance 0x8000000000000000#64) (seeded1 []) = .next t ∧
      exec (.advance 0x8000000000000000#64) t = .next u) ∧
    (∃ t, exec (.advance 0#64) (seeded1 []) = .next t) := ⟨⟨_, _, rfl, rfl⟩, ⟨_, _, rfl, rfl⟩, ⟨_, rfl⟩⟩

theorem witness_JumpRunsBitlenIterations :
    0 < bitlen 1#64 ∧ 63 < bitlen 0x8000000000000000#64 ∧ (0x8000000000000000#64).msb = true := by decide +kernel

theorem witness_JumpRegistersInClosedForm : laneA1.inc = (laneA1.setState 0#64).inc := by decide

theorem witness_IncrementsReadOdd : LaneReg.incA = .incA ∨ LaneReg.incA = .incB := by decide

/-- A readback and a command that completes, and one that waits. -/
theorem witness_ReadbackHasNoSideEffect :
    (∃ t u, exec .readStatus (seeded1 []) = .next t ∧ exec .next (seeded1 []) = .next u) ∧
    (∃ t u, exec (.readState .incB) (seeded1 []) = .next t ∧ exec .seedDraw (seeded1 []) = .next u) :=
  ⟨⟨_, _, rfl, rfl⟩, ⟨_, _, rfl, rfl⟩⟩

theorem witness_DrawAndJumpFrame :
    (∃ t, exec .next (seeded1 []) = .next t) ∧ (∃ t, exec (.advance 1#64) (seeded1 []) = .next t) :=
  ⟨⟨_, rfl⟩, ⟨_, rfl⟩⟩

theorem witness_ReadbackFrame :
    (∃ t, exec .readStatus (seeded1 []) = .next t) ∧ (∃ t, exec (.readState .stateB) (seeded1 []) = .next t) :=
  ⟨⟨_, rfl⟩, ⟨_, rfl⟩⟩

theorem witness_SeedingFrame :
    (∃ t, exec (.seed 0#64 0#64 0#64 0#64) (seeded1 []) = .next t) ∧
    (∃ t, exec (.seedBytes (List.replicate 32 0#8)) (seeded1 []) = .next t) := ⟨⟨_, rfl⟩, ⟨_, rfl⟩⟩

theorem witness_LegalCommandsCompleteWithOk :
    (Instr.seedBytes (List.replicate 32 0#8)).wf = true ∧ Instr.seedBytes (List.replicate 32 0#8) ≠ .seedDraw := by decide

/-- Each clause: a readback of STATUS, a command that waits, NEXT and ADVANCE. -/
theorem witness_StatusGatesNothing :
    (∃ t, exec .readStatus (zero1 []) = .next t) ∧ (∃ t, exec .seedDraw (zero1 []) = .next t) ∧
    (∃ t, exec .next (zero1 []) = .next t) ∧ (∃ t, exec (.advance 1#64) (zero1 []) = .next t) :=
  ⟨⟨_, rfl⟩, ⟨_, rfl⟩, ⟨_, rfl⟩, ⟨_, rfl⟩⟩

/-- A step with a response of a code that is not OK. -/
theorem witness_OneResponseAtMostPerStep :
    ∃ t, step (seeded1 [.command { word := 0#32, beats := [] }]) = .next t ∧
      t.responses = [{ code := .illegal, result := 0#64 }] := ⟨_, rfl, by decide +kernel⟩

theorem witness_AcceptedCommandIsAnswered :
    decode nextTx = .ok .next ∧ (∃ t, step (seeded1 [.command nextTx]) = .next t) ∧
    decode { word := 0x00000003#32, beats := [] } = .ok .seedDraw ∧
    (∃ t, step (seeded1 [.command { word := 0x00000003#32, beats := [] }]) = .next t) :=
  ⟨by decide, ⟨_, rfl⟩, by decide, ⟨_, rfl⟩⟩

theorem witness_EntropyCodeOnlyFromSeedDraw :
    ∃ t, exec .seedDraw (zero1 [.answer 1 .fail]) = .next t ∧
      t.responses = { code := .entropy, result := 0#64 } :: (zero1 [.answer 1 .fail]).responses :=
  ⟨_, rfl, by decide +kernel⟩

/-- A BUSY core; an IDLE one that finds a legal command, an illegal one, one cut by reset, and no command. -/
theorem witness_CommandsKeepTheirOrder :
    (∃ t, step (busy1 [] [.command nextTx, .reset]) = .next t ∧ (busy1 [] [.command nextTx, .reset]).activity = .busy) ∧
    (∃ t, step (seeded1 [.command nextTx, .command nextTx]) = .next t ∧
      (seeded1 [.command nextTx, .command nextTx]).activity = .idle) ∧
    (∃ t, step (seeded1 [.command { word := 0#32, beats := [] }]) = .next t) ∧
    (∃ t, step (seeded1 [.commandCutByReset nextTx, .command nextTx]) = .next t) ∧
    (∃ t, step (seeded1 [.answer 1 .fail, .command nextTx]) = .next t) :=
  ⟨⟨_, rfl, rfl⟩, ⟨_, rfl, rfl⟩, ⟨_, rfl⟩, ⟨_, rfl⟩, ⟨_, rfl⟩⟩

theorem witness_ResetAbandonsTheCommand :
    ((busy1 [5#64] [.command nextTx, .reset]).activity = .busy ∧
      wake (busy1 [5#64] [.command nextTx, .reset]).requests (busy1 [5#64] [.command nextTx, .reset]).inputs =
        some (.reset, [.command nextTx])) ∧
    ((seeded1 [.reset]).activity = .idle ∧ (seeded1 [.reset]).inputs = .reset :: []) ∧
    ((seeded1 [.commandCutByReset nextTx]).activity = .idle ∧
      (seeded1 [.commandCutByReset nextTx]).inputs = .commandCutByReset nextTx :: []) := by decide

/-- An IDLE core; a BUSY one that nothing else reaches, and one with the right answer behind the late one. -/
theorem witness_LateAnswersAreIgnored :
    ((seeded1 [.answer 1 .fail]).inputs = .answer 1 .fail :: [] ∧ (seeded1 [.answer 1 .fail]).activity = .idle) ∧
    ((busy1 [5#64] [.answer 1 .fail]).inputs = .answer 1 .fail :: [] ∧
      (busy1 [5#64] [.answer 1 .fail]).activity = .busy ∧ 1 ≠ (busy1 [5#64] [.answer 1 .fail]).requests ∧
      wake (busy1 [5#64] [.answer 1 .fail]).requests [] = none) ∧
    ((busy1 [5#64] [.answer 1 .fail, .answer 2 (.word 6#64)]).inputs = .answer 1 .fail :: [.answer 2 (.word 6#64)] ∧
      (busy1 [5#64] [.answer 1 .fail, .answer 2 (.word 6#64)]).activity = .busy ∧
      1 ≠ (busy1 [5#64] [.answer 1 .fail, .answer 2 (.word 6#64)]).requests ∧
      wake (busy1 [5#64] [.answer 1 .fail, .answer 2 (.word 6#64)]).requests [.answer 2 (.word 6#64)] ≠ none) := by
  decide

theorem witness_DistinctStreamsIsInvariant :
    (seeded1 [.command nextTx]).DistinctStreams ∧ (seeded1 [.command nextTx]).seeded = true ∧
    ∃ t, step (seeded1 [.command nextTx]) = .next t := ⟨by decide, by decide, _, rfl⟩

theorem witness_PortOrderlyIsInvariant :
    (busy1 [5#64] [.answer 2 (.word 6#64)]).PortOrderly ∧
    ∃ t, step (busy1 [5#64] [.answer 2 (.word 6#64)]) = .next t := ⟨by decide, _, rfl⟩

/-- A bit cleared by reset; SEEDED set by the last word; ENT_FAIL set by a Fail; a seeding command that answers OK. -/
theorem witness_StatusBitsAreSticky :
    (∃ t, step (seeded1 [.reset]) = .next t ∧ (seeded1 [.reset]).seeded = true ∧ t.seeded = false) ∧
    (∃ t, step (busy1 [7#64, 7#64, 9#64] [.answer 4 (.word 9#64)]) = .next t ∧
      (busy1 [7#64, 7#64, 9#64] [.answer 4 (.word 9#64)]).seeded = false ∧ t.seeded = true) ∧
    (∃ t, step (busy1 [] [.answer 1 .fail]) = .next t ∧ (busy1 [] [.answer 1 .fail]).entFail = false ∧
      t.entFail = true ∧ t.responses = { code := .entropy, result := 0#64 } :: (busy1 [] [.answer 1 .fail]).responses) ∧
    (∃ t, step (busy1 [7#64, 7#64, 9#64] [.answer 4 (.word 9#64)]) = .next t ∧
      (busy1 [7#64, 7#64, 9#64] [.answer 4 (.word 9#64)]).InProgress .seedDraw ∧ Instr.Seeding .seedDraw ∧
      t.responses = { code := .ok, result := 0#64 } ::
        (busy1 [7#64, 7#64, 9#64] [.answer 4 (.word 9#64)]).responses) :=
  ⟨⟨_, rfl, rfl, rfl⟩, ⟨_, rfl, rfl, by decide +kernel⟩, ⟨_, rfl, rfl, by decide +kernel, by decide +kernel⟩,
    ⟨_, rfl, .inr ⟨rfl, rfl⟩, .inr (.inr rfl), by decide +kernel⟩⟩

/-- The premises of both parts: a NEXT on a core that stands one step after the seeding with 1, 2, 3, 4. -/
theorem witness_LanesStayInLockStep :
    let s : State :=
      { seeded1 [.command nextTx] with
        laneA := laneStep (seededLane 1#64 3#64), laneB := laneStep (seededLane 2#64 (laneBSeq 3#64 4#64)) }
    s.PortOrderly ∧ (∃ t, step s = .next t) ∧ s.InStepSince 1#64 2#64 3#64 4#64 ∧ (∀ rest, ¬ s.ResetComes rest) ∧
    ∀ a b c d, ¬ s.StepSeedsWith a b c d := by
  refine ⟨⟨fun _ => rfl, fun h => by cases h⟩, ⟨_, rfl⟩, ⟨1, rfl, rfl⟩, ?_, ?_⟩
  · rintro rest (⟨h, -⟩ | ⟨-, h | ⟨t, h⟩⟩)
    · cases h
    · simp [seeded1] at h
    · simp [seeded1] at h
  · rintro a b c d (⟨-, t, rest, i, h, hd, hs⟩ | ⟨h, -⟩)
    · simp only [seeded1, List.cons.injEq, Input.command.injEq] at h
      obtain ⟨rfl, rfl⟩ := h
      have hn : decode nextTx = .ok .next := by decide
      rw [hn] at hd
      cases hd
      simp [SeedsWith, Instr.command] at hs
    · cases h

/-- The seed words of a step: SEED's beats at an IDLE core, and the words a BUSY core has and gets. -/
theorem witness_StepSeedsWith :
    (seeded1 [.command { word := 0x00000001#32, beats := [1#64, 2#64, 3#64, 3#64] }]).StepSeedsWith
      1#64 2#64 3#64 3#64 ∧
    (busy1 [7#64, 7#64, 9#64] [.answer 4 (.word 9#64)]).StepSeedsWith 7#64 7#64 9#64 9#64 :=
  ⟨.inl ⟨rfl, _, _, .seed 1#64 2#64 3#64 3#64, rfl, by decide, .inl ⟨.inl rfl, rfl⟩⟩,
    .inr ⟨rfl, [9#64], [], by decide, rfl, ⟨_, rfl, rfl⟩⟩⟩

end Sys2Proof.Tests
end

section
/-! PROOF. The scope family (`00_scope.md`): the command an IDLE core takes (R10, R32), the operand `u64` makes of a step
count (R8, R140), and the reset values (R33). -/

namespace Sys2Proof.Machine

open Sys2Proof

/-! ### Taking a command -/

/-- An IDLE core deals with the transaction at its port (R32). -/
theorem nextEvent_command {s : State} {t : Transaction} {rest : List Input} (ha : s.activity = .idle)
    (hi : s.inputs = .command t :: rest) : nextEvent s = takeCommand t rest s := by
  simp only [nextEvent, ha, idleEvent, hi]

/-- A transaction that decodes is accepted, and its command runs (R60, R68). -/
theorem takeCommand_ok {t : Transaction} {i : Instr} (hd : decode t = .ok i) (rest : List Input) (s : State) :
    takeCommand t rest s = .run i (s.accept rest) := by
  simp only [takeCommand, hd]

/-- A step runs the command its event names (R10). -/
theorem step_of_run {s s' : State} {i : Instr} (h : nextEvent s = .run i s') : step s = exec i s' := by
  simp only [step, h]

/-- Settles O1: the event of such a core is the run of its command in the accepted state. -/
theorem stepRunsDecodedCommand : Obligations.StepRunsDecodedCommand := by
  intro s t rest i ha hi hd
  have hrun : nextEvent s = .run i (s.accept rest) := by rw [nextEvent_command ha hi, takeCommand_ok hd]
  exact step_of_run hrun

/-! ### The operand of a step count -/

/-- The operand, as a number, is the count modulo 2^64 (R8). -/
theorem u64_toNat (d : Int) : (u64 d).toNat = (d % 2 ^ 64).toNat := BitVec.toNat_ofInt d

/-- Counts that agree modulo 2^64 are one operand (R140). -/
theorem u64_congr {d e : Int} (h : d % 2 ^ 64 = e % 2 ^ 64) : u64 d = u64 e := by
  apply BitVec.eq_of_toNat_eq
  rw [u64_toNat, u64_toNat, h]

/-- The operand of a backward count (R140). -/
theorem u64_neg_toNat {n : Nat} (h0 : 1 ≤ n) (h1 : n ≤ 2 ^ 64) : (u64 (-(n : Int))).toNat = 2 ^ 64 - n := by
  have hmod : (-(n : Int)) % 2 ^ 64 = 2 ^ 64 - n := by omega
  rw [u64_toNat, hmod]
  omega

/-- Settles O26: both parts follow from `u64` being the count modulo 2^64. -/
theorem jumpCountsWrap : Obligations.JumpCountsWrap := by
  refine ⟨fun n h0 h1 => ?_, fun d e h => u64_congr h⟩
  have hle : n ≤ 2 ^ 64 := by omega
  exact u64_neg_toNat h0 hle

/-! ### Reset -/

/-- STATUS with both fields clear is 0 (R27). -/
theorem statusWord_clear : statusWord false false = 0#64 := by decide

/-- STATUS after reset (R27, R33). -/
theorem reset_status : State.reset.status = 0#64 := by
  rw [State.status_eq]
  exact statusWord_clear

/-- The increments after reset: the open parameters below which bit 0 is hard-wired (R22, R33). -/
theorem reset_x_incA : State.reset.x .incA = Config.resetIncHiA ++ 1#1 := by rw [State.x_incA, Lane.inc, State.reset]

theorem reset_x_incB : State.reset.x .incB = Config.resetIncHiB ++ 1#1 := by rw [State.x_incB, Lane.inc, State.reset]

/-- Settles O48: each register is its field of `State.reset`. -/
theorem resetValues : Obligations.ResetValues :=
  ⟨State.x_stateA _, reset_x_incA, State.x_stateB _, reset_x_incB, reset_status, rfl, rfl⟩

end Sys2Proof.Machine
end

section
/-! PROOF. The state family (`10_state.md`): SEED_DRAW and the entropy port (R31, R109, R110, R190), the increments (R22,
R23), the STATUS bits (R27 to R29), the order of commands (R32), and the two lanes' lock-step (R219). -/

namespace Sys2Proof.Machine

open Sys2Proof

/-! ### One equation of `step` for each event -/

/-- A step leaves what its event settles. -/
theorem step_of_settle {s t : State} (h : nextEvent s = .settle t) : step s = .next t := by
  simp only [step, h]

/-- A step stops where its event is refused. -/
theorem step_of_refuse {s : State} {r : Refusal} (h : nextEvent s = .refuse r) : step s = .refused r := by
  simp only [step, h]

theorem nextEvent_idle {s : State} (h : s.activity = .idle) : nextEvent s = idleEvent s := by
  simp only [nextEvent, h]

theorem nextEvent_busy {s : State} (h : s.activity = .busy) : nextEvent s = busyEvent s := by
  simp only [nextEvent, h]

/-- An illegal transaction is one whose word is illegal (R69). -/
theorem decode_illegal_iff {t : Transaction} {why : Illegal} :
    decode t = .error (.illegal why) ↔ decodeWord t.word = .error why := by
  unfold decode
  rcases decodeWord t.word with e | c
  · simp
  · rcases hb : c.withBeats t.beats with _ | i <;> simp [hb]

section Idle

variable {s : State} {rest : List Input} (hidle : s.activity = .idle)
include hidle

/-- With nothing at its ports an IDLE core waits (R211). -/
theorem step_idle_nil (hi : s.inputs = []) : step s = .next s :=
  step_of_settle (by simp only [nextEvent_idle hidle, idleEvent, hi])

/-- The command at its port is run (R10, R32). -/
theorem step_idle_ok {c : Transaction} {i : Instr} (hi : s.inputs = .command c :: rest) (hd : decode c = .ok i) :
    step s = exec i (s.accept rest) :=
  step_of_run (by rw [nextEvent_command hidle hi, takeCommand_ok hd])

/-- An illegal word is answered ILLEGAL (R182). -/
theorem step_idle_illegal {c : Transaction} {why : Illegal} (hi : s.inputs = .command c :: rest)
    (hd : decode c = .error (.illegal why)) : step s = .next ((s.accept rest).raise .illegal) :=
  step_of_settle (by simp only [nextEvent_command hidle hi, takeCommand, hd])

/-- A wrong beat count is refused (R70). -/
theorem step_idle_beatCount {c : Transaction} (hi : s.inputs = .command c :: rest)
    (hd : decode c = .error .beatCount) : step s = .refused .beatCount :=
  step_of_refuse (by simp only [nextEvent_command hidle hi, takeCommand, hd])

/-- A command that reset cuts short leaves the reset (R210). -/
theorem step_idle_cut {c : Transaction} (hi : s.inputs = .commandCutByReset c :: rest) :
    step s = .next (s.enterReset rest) :=
  step_of_settle (by simp only [nextEvent_idle hidle, idleEvent, hi])

/-- An IDLE core drops an answer (I12). -/
theorem step_idle_answer {n : Nat} {a : Answer} (hi : s.inputs = .answer n a :: rest) :
    step s = .next { s with inputs := rest } :=
  step_of_settle (by simp only [nextEvent_idle hidle, idleEvent, hi])

theorem step_idle_reset (hi : s.inputs = .reset :: rest) : step s = .next (s.enterReset rest) :=
  step_of_settle (by simp only [nextEvent_idle hidle, idleEvent, hi])

/-- An IDLE core answers ILLEGAL with nothing else changed (R182). -/
theorem accept_raise_of_idle (code : Code) : (s.accept rest).raise code =
    { s with inputs := rest, responses := { code := code, result := 0#64 } :: s.responses } :=
  State.eq_of_fields rfl rfl rfl rfl hidle.symm rfl rfl rfl rfl

end Idle

section Busy

variable {s : State} {rest : List Input} (hbusy : s.activity = .busy)
include hbusy

/-- An answer to its request lets a SEED_DRAW go on (R190). -/
theorem step_busy_answer (hw : ∃ a rest, wake s.requests s.inputs = some (.answer a, rest)) :
    step s = .next (resumeDraw s) := by
  obtain ⟨a, rest, hw⟩ := hw
  exact step_of_settle (by simp only [nextEvent_busy hbusy, busyEvent, hw])

/-- Reset ends the wait (R185, R210). -/
theorem step_busy_reset (hw : wake s.requests s.inputs = some (.reset, rest)) : step s = .next (s.enterReset rest) :=
  step_of_settle (by simp only [nextEvent_busy hbusy, busyEvent, hw])

/-- What nothing reaches stays as it is (R216). -/
theorem step_busy_none (hw : wake s.requests s.inputs = none) : step s = .next s :=
  step_of_settle (by simp only [nextEvent_busy hbusy, busyEvent, hw])

end Busy

/-! ### The words that reach a SEED_DRAW (R109, R190) -/

/-- Where a word arrives, an answer wakes the core. -/
theorem WordsArrive.wakes {req : Nat} {ins mid : List Input} {ws : List Word} (h : WordsArrive req ins ws mid)
    (hne : ws ≠ []) : ∃ a rest, wake req ins = some (.answer a, rest) := by
  cases ws with
  | nil => exact absurd rfl hne
  | cons w ws =>
    obtain ⟨mid', hw, -⟩ := h
    exact ⟨_, _, hw⟩

/-- So it does where an answer comes after the words, be they none. -/
theorem WordsArrive.wakes_of_answer {req : Nat} {ins mid rest : List Input} {ws : List Word} {a : Answer}
    (h : WordsArrive req ins ws mid) (ha : wake (req + ws.length) mid = some (.answer a, rest)) :
    ∃ a rest, wake req ins = some (.answer a, rest) := by
  cases ws with
  | nil => cases h; exact ⟨a, rest, ha⟩
  | cons w ws => exact h.wakes (List.cons_ne_nil w ws)

/-- A SEED_DRAW goes on from the words that have arrived, at most three (R109). -/
theorem execSeedDraw_words {ws : List Word} {s : State} {mid : List Input} (hl : ws.length ≤ 3)
    (h : WordsArrive (s.requests + 1) s.inputs ws mid) :
    exec .seedDraw s = .next (awaitWords (3 - ws.length)
      { s with activity := .busy, entropyBuf := ws, inputs := mid, requests := s.requests + 1 + ws.length }) := by
  have hn : drawCount - 1 = 3 - ws.length + ws.length := by simp only [drawCount]; omega
  rw [exec, execSeedDraw, hn, awaitWords_some ws (beginDraw s) _ h]
  rfl

/-- So does one that had to wait, with the words it has before them. -/
theorem resumeDraw_words {ws : List Word} {s : State} {mid : List Input} (hl : s.entropyBuf.length + ws.length ≤ 3)
    (h : WordsArrive s.requests s.inputs ws mid) :
    resumeDraw s = awaitWords (3 - (s.entropyBuf.length + ws.length))
      { s with entropyBuf := s.entropyBuf ++ ws, inputs := mid, requests := s.requests + ws.length } := by
  have hn : s.entropyBuf.length + (3 - (s.entropyBuf.length + ws.length) + ws.length) + 1 = drawCount := by
    simp only [drawCount]; omega
  rw [resumeDraw_eq hn, awaitWords_some ws s _ h]

/-- Settles O14: the loop takes the four words and ends as `finishDraw` does. -/
theorem seedDrawUsesFourWords : Obligations.SeedDrawUsesFourWords := by
  intro a b c d s rest h
  have hall := awaitWords_all (n := drawCount - 1) [a, b, c, d] (beginDraw s) rfl h
  rw [exec, execSeedDraw, hall, finishDraw_eq]
  rfl

/-- Settles O15: after the words that arrive, the loop's next answer is Fail, and `failDraw` ends it. -/
theorem seedDrawFailureSetsEntFailOnly : Obligations.SeedDrawFailureSetsEntFailOnly := by
  refine ⟨fun ws s mid rest hl h hf => ?_, fun ws s mid rest hb hl h hf => ?_⟩
  · rw [execSeedDraw_words hl h, awaitWords_fail hf, failDraw_eq]
  · rw [step_busy_answer hb (h.wakes_of_answer hf), resumeDraw_words hl h, awaitWords_fail hf, failDraw_eq]

/-- Settles O16: after the words that arrive, no answer is there, and the loop leaves the state it has. -/
theorem seedDrawWaitsForAnswers : Obligations.SeedDrawWaitsForAnswers := by
  refine ⟨fun ws s mid hl h hn => ?_, fun ws s mid hb hl hne h hn => ?_⟩
  · rw [execSeedDraw_words hl h, awaitWords_wait hn]
  · rw [step_busy_answer hb (h.wakes hne), resumeDraw_words hl h, awaitWords_wait hn]

/-- Settles O18: the words it had and those that arrive are the four `finishDraw` seeds with. -/
theorem waitingSeedDrawCompletes : Obligations.WaitingSeedDrawCompletes := by
  intro a b c d s ws rest hb hbuf hne h
  have hpos : 0 < ws.length := List.length_pos_iff.mpr hne
  have hlen : s.entropyBuf.length + ws.length = 4 := by rw [← List.length_append, hbuf]; rfl
  have hws : ws.length = ws.length - 1 + 1 := by omega
  have hresume : s.entropyBuf.length + (ws.length - 1) + 1 = drawCount := by simp only [drawCount]; omega
  rw [step_busy_answer hb (h.wakes hne), resumeDraw_eq hresume, awaitWords_all ws s hws h, finishDraw_eq, hbuf]
  rfl

/-! ### A jump is a number of steps (R141, R144) -/

/-- The map `x ↦ m * x + p` is `n` steps of a lane with `l`'s increment. -/
def Lane.StepsAs (l : Lane) (n : Nat) (m p : Word) : Prop :=
  ∀ x : Word, laneSteps n (l.setState x) = l.setState (m * x + p)

theorem Lane.stepsAs_zero (l : Lane) : l.StepsAs 0 1#64 0#64 := fun x => by
  rw [laneSteps_zero, BitVec.one_mul, BitVec.add_zero]

theorem Lane.stepsAs_one (l : Lane) : l.StepsAs 1 mult l.inc := fun x => by
  rw [laneSteps_succ, laneSteps_zero]
  exact Lane.eq_of_fields (by simp only [laneStep_state, Lane.setState_state, Lane.setState_inc])
    (by simp only [laneStep_incHi, Lane.setState_incHi])

/-- Maps of steps compose to the map of all the steps. -/
theorem Lane.StepsAs.add {l : Lane} {a b : Nat} {m p m' p' : Word} (h : l.StepsAs a m p) (h' : l.StepsAs b m' p') :
    l.StepsAs (a + b) (m * m') (p * m' + p') := fun x => by
  have hmap : m' * (m * x + p) + p' = m * m' * x + (p * m' + p') := by ring
  rw [laneSteps_add, h, h', hmap]

/-- An iteration doubles the steps of the current map (R141). -/
theorem JumpUnit.iterate_cur_stepsAs {l : Lane} {c : Nat} {j : JumpUnit} (h : l.StepsAs c j.curMult j.curPlus) :
    l.StepsAs (c + c) j.iterate.curMult j.iterate.curPlus := by
  have hplus : (j.curMult + 1#64) * j.curPlus = j.curPlus * j.curMult + j.curPlus := by
    rw [BitVec.add_mul, BitVec.one_mul, BitVec.mul_comm]
  simpa only [JumpUnit.iterate, hplus] using h.add h

/-- It adds them to the accumulators where bit 0 of the count is set (R141). -/
theorem JumpUnit.iterate_acc_stepsAs {l : Lane} {a c : Nat} {j : JumpUnit} (hacc : l.StepsAs a j.accMult j.accPlus)
    (hcur : l.StepsAs c j.curMult j.curPlus) :
    l.StepsAs (a + c * (j.rem.toNat % 2)) j.iterate.accMult j.iterate.accPlus := by
  rcases Nat.mod_two_eq_zero_or_one j.rem.toNat with hbit | hbit
  · have hlsb : j.rem.getLsbD 0 = false := by simp [BitVec.getLsbD, Nat.testBit_zero, hbit]
    simpa only [JumpUnit.iterate, hlsb, hbit, Bool.false_eq_true, if_false, Nat.mul_zero, Nat.add_zero] using hacc
  · have hlsb : j.rem.getLsbD 0 = true := by simp [BitVec.getLsbD, Nat.testBit_zero, hbit]
    simpa only [JumpUnit.iterate, hlsb, hbit, if_true, Nat.mul_one] using hacc.add hcur

/-- It halves the count (R141). -/
theorem JumpUnit.iterate_rem_toNat (j : JumpUnit) : j.iterate.rem.toNat = j.rem.toNat / 2 := by
  rw [JumpUnit.iterate_rem, BitVec.toNat_ushiftRight, Nat.shiftRight_eq_div_pow, pow_one]

/-- The loop of R141: with the accumulators at `a` steps and the current map at `c`, it ends `c` times the count further. -/
theorem JumpUnit.run_stepsAs {l : Lane} {n a c : Nat} {j : JumpUnit} (hacc : l.StepsAs a j.accMult j.accPlus)
    (hcur : l.StepsAs c j.curMult j.curPlus) (hrem : j.rem.toNat < 2 ^ n) :
    l.StepsAs (a + c * j.rem.toNat) (JumpUnit.run n j).accMult (JumpUnit.run n j).accPlus := by
  induction n generalizing j a c with
  | zero =>
    have h0 : j.rem.toNat = 0 := by omega
    simpa only [JumpUnit.run_zero, h0, Nat.mul_zero, Nat.add_zero] using hacc
  | succ n ih =>
    by_cases h0 : j.rem = 0#64
    · simpa only [JumpUnit.run_done _ h0, h0, BitVec.toNat_zero, Nat.mul_zero, Nat.add_zero] using hacc
    · have hhalf := j.iterate_rem_toNat
      have hsum : a + c * (j.rem.toNat % 2) + (c + c) * j.iterate.rem.toNat = a + c * j.rem.toNat := by
        conv_rhs => rw [← Nat.mod_add_div j.rem.toNat 2]
        rw [hhalf]
        ring
      have hlt : j.iterate.rem.toNat < 2 ^ n := by omega
      rw [JumpUnit.run_more n h0, ← hsum]
      exact ih (JumpUnit.iterate_acc_stepsAs hacc hcur) (JumpUnit.iterate_cur_stepsAs hcur) hlt

/-- LaneJump by D is D applications of LaneStep (R144). -/
theorem laneJump_eq_laneSteps (l : Lane) (d : Word) : laneJump l d = laneSteps d.toNat l := by
  have hrun := JumpUnit.run_stepsAs (n := maxIterations) (j := JumpUnit.init l d) l.stepsAs_zero l.stepsAs_one d.isLt
  rw [Nat.zero_add, Nat.one_mul] at hrun
  exact (hrun l.state).symm

/-! ### What a step does to the lanes and STATUS -/

/-- The sequence ids of the two lanes differ in bits 62..0 (R103, R104). -/
theorem laneBSeq_setWidth_ne (c d : Word) : c.setWidth 63 ≠ (laneBSeq c d).setWidth 63 := by
  unfold laneBSeq
  split
  next h =>
    intro e
    have hbit := congrArg (fun v => BitVec.getLsbD v 0) (h.symm.trans e)
    simp at hbit
  next h => exact h

/-- An IDLE core has one command in progress at most, and so has a BUSY one (R32). -/
theorem State.InProgress.unique {s : State} {i j : Instr} (hi : s.InProgress i) (hj : s.InProgress j) : i = j := by
  rcases hi with ⟨ha, c, rest, hin, hd⟩ | ⟨hb, rfl⟩ <;> rcases hj with ⟨ha', c', rest', hin', hd'⟩ | ⟨hb', rfl⟩
  · rw [hin] at hin'
    cases hin'
    rw [hd] at hd'
    exact Except.ok.inj hd'
  · exact nomatch ha.symm.trans hb'
  · exact nomatch hb.symm.trans ha'
  · rfl

/-- From `s` to `t` a seeding command completes: SEEDED is set, the lanes are those of its seed words (R105). -/
structure State.SeedsTo (s t : State) : Prop where
  inProgress : ∃ i, s.InProgress i ∧ Instr.Seeding i
  lanes : ∃ a b c d, (s.PortOrderly → s.StepSeedsWith a b c d) ∧
    t.laneA = seededLane a c ∧ t.laneB = seededLane b (laneBSeq c d)
  seeded : t.seeded = true
  entFail : t.entFail = s.entFail
  responses : t.responses = { code := .ok, result := 0#64 } :: s.responses

/-- From `s` to `t` a SEED_DRAW fails: ENT_FAIL is set, and the lanes stay (R110). -/
structure State.FailsTo (s t : State) : Prop where
  inProgress : s.InProgress .seedDraw
  laneA : t.laneA = s.laneA
  laneB : t.laneB = s.laneB
  seeded : t.seeded = s.seeded
  entFail : t.entFail = true
  responses : t.responses = { code := .entropy, result := 0#64 } :: s.responses

/-- From `s` to `t` STATUS stays and both lanes are stepped by one same count; no ENTROPY is answered, and no seeding command
completes. -/
structure State.KeepsStatusTo (s t : State) : Prop where
  lanes : ∃ n, t.laneA = laneSteps n s.laneA ∧ t.laneB = laneSteps n s.laneB
  seeded : t.seeded = s.seeded
  entFail : t.entFail = s.entFail
  noEntropy : ∀ v, t.responses ≠ { code := .entropy, result := v } :: s.responses
  noSeeding : ∀ i v, s.InProgress i → Instr.Seeding i → t.responses ≠ { code := .ok, result := v } :: s.responses

/-- A step that touches no lane, no STATUS bit and no response keeps STATUS. -/
theorem State.keepsStatusTo_of_eq {s t : State} (hA : t.laneA = s.laneA) (hB : t.laneB = s.laneB)
    (hs : t.seeded = s.seeded) (he : t.entFail = s.entFail) (hr : t.responses = s.responses) : s.KeepsStatusTo t where
  lanes := ⟨0, hA, hB⟩
  seeded := hs
  entFail := he
  noEntropy _ h := List.cons_ne_self _ _ (h.symm.trans hr)
  noSeeding _ _ _ _ h := List.cons_ne_self _ _ (h.symm.trans hr)

/-- The command an IDLE core runs seeds, fails or keeps STATUS. -/
theorem exec_outcomes {s t : State} {c : Transaction} {rest : List Input} {i : Instr} (hidle : s.activity = .idle)
    (hin : s.inputs = .command c :: rest) (hd : decode c = .ok i) (h : exec i (s.accept rest) = .next t) :
    s.SeedsTo t ∨ s.FailsTo t ∨ s.KeepsStatusTo t := by
  have hi : s.InProgress i := .inl ⟨hidle, c, rest, hin, hd⟩
  rcases exec_cases h with ⟨v, hr, -, -, -, he, ⟨rfl, hs, hseed, a, b, c', d, hw, hA, hB⟩ | ⟨hs, hno, hl⟩⟩ |
    ⟨rfl, hA, hB, hs, -, ⟨hr, -, -, he⟩ | ⟨hr, -, he, -⟩⟩
  · exact .inl ⟨⟨i, hi, hseed⟩, ⟨a, b, c', d, fun _ => .inl ⟨hidle, c, rest, i, hin, hd, hw⟩, hA, hB⟩, hs, he, hr⟩
  · refine .inr (.inr ⟨?_, hs, he, fun v' h' => ?_, fun j v' hj hseed => absurd (hi.unique hj ▸ hseed) hno⟩)
    · rcases hl with ⟨hA, hB⟩ | ⟨d, hA, hB⟩ | ⟨hA, hB⟩
      · exact ⟨1, hA, hB⟩
      · exact ⟨d.toNat, hA.trans (laneJump_eq_laneSteps _ d), hB.trans (laneJump_eq_laneSteps _ d)⟩
      · exact ⟨0, hA, hB⟩
    · rw [hr] at h'; cases h'
  · exact .inr (.inl ⟨hi, hA, hB, hs, he, hr⟩)
  · exact .inr (.inr (State.keepsStatusTo_of_eq hA hB hs he hr))

/-- A SEED_DRAW that goes on seeds, fails or keeps STATUS. -/
theorem resumeDraw_outcomes {s : State} (hb : s.activity = .busy) :
    s.SeedsTo (resumeDraw s) ∨ s.FailsTo (resumeDraw s) ∨ s.KeepsStatusTo (resumeDraw s) := by
  have hi : s.InProgress .seedDraw := .inr ⟨hb, rfl⟩
  rcases (resumeDraw_cases s).2 with ⟨hr, -, -, he, hs, a, b, c, d, hw, hA, hB⟩ |
    ⟨hA, hB, hs, ⟨hr, -, -, he⟩ | ⟨hr, -, he, -⟩⟩
  · refine .inl ⟨⟨_, hi, .inr (.inr rfl)⟩, ⟨a, b, c, d, fun hport => ?_, hA, hB⟩, hs, he, hr⟩
    exact .inr ⟨hb, hw (hport.2 hb).1⟩
  · exact .inr (.inl ⟨hi, hA, hB, hs, he, hr⟩)
  · exact .inr (.inr (State.keepsStatusTo_of_eq hA hB hs he hr))

/-- Everything a step can do to the lanes and STATUS: reset, seed, fail, or keep STATUS. -/
theorem step_outcomes {s t : State} (h : step s = .next t) :
    (∃ rest, s.ResetComes rest ∧ t = s.enterReset rest) ∨ s.SeedsTo t ∨ s.FailsTo t ∨ s.KeepsStatusTo t := by
  rcases step_cases h with rfl | ⟨-, n, a, rest, -, rfl⟩ | ⟨rest, rfl, hreset⟩ | ⟨hidle, c, rest, hin, ⟨why, hd⟩, rfl⟩ |
    ⟨hidle, c, rest, i, hin, hd, he⟩ | ⟨hb, -, rfl⟩
  · exact .inr (.inr (.inr (State.keepsStatusTo_of_eq rfl rfl rfl rfl rfl)))
  · exact .inr (.inr (.inr (State.keepsStatusTo_of_eq rfl rfl rfl rfl rfl)))
  · exact .inl ⟨rest, hreset.symm, rfl⟩
  · refine .inr (.inr (.inr ⟨⟨0, rfl, rfl⟩, rfl, rfl, fun v h' => ?_, fun i v _ _ h' => ?_⟩))
    · simp at h'
    · simp at h'
  · exact .inr (exec_outcomes hidle hin hd he)
  · exact .inr (resumeDraw_outcomes hb)

/-! ### The distinct-stream invariant (R23) -/

/-- A completed seeding leaves different increments (R104). -/
theorem State.SeedsTo.inc_ne {s t : State} (h : s.SeedsTo t) : t.x .incA ≠ t.x .incB := by
  obtain ⟨a, b, c, d, -, hA, hB⟩ := h.lanes
  rw [State.x_incA, State.x_incB, hA, hB]
  exact seededLane_inc_ne (laneBSeq_setWidth_ne c d)

/-- Steps of the lanes leave the increments (R22). -/
theorem State.KeepsStatusTo.inc_eq {s t : State} (h : s.KeepsStatusTo t) :
    t.x .incA = s.x .incA ∧ t.x .incB = s.x .incB := by
  obtain ⟨n, hA, hB⟩ := h.lanes
  rw [State.x_incA, State.x_incB, hA, hB, laneSteps_inc, laneSteps_inc]
  exact ⟨rfl, rfl⟩

/-- Settles O51: reset clears SEEDED, a seeding makes the increments differ, and everything else keeps SEEDED and both
increments. -/
theorem distinctStreamsIsInvariant : Obligations.DistinctStreamsIsInvariant := by
  intro s t hs h hseeded
  rcases step_outcomes h with ⟨rest, -, rfl⟩ | hseeds | hfail | hkeep
  · cases hseeded
  · exact hseeds.inc_ne
  · rw [State.x_incA, State.x_incB, hfail.laneA, hfail.laneB]
    exact hs (hfail.seeded ▸ hseeded)
  · rw [hkeep.inc_eq.1, hkeep.inc_eq.2]
    exact hs (hkeep.seeded ▸ hseeded)

/-- Settles O52: SEEDED is clear after reset. -/
theorem distinctStreamsAtReset : Obligations.DistinctStreamsAtReset := by
  intro hseeded
  cases hseeded

/-- Settles O36: bit 0 of an increment is hard-wired. -/
theorem incrementsReadOdd : Obligations.IncrementsReadOdd := by
  rintro s r (rfl | rfl)
  · exact ⟨_, _, rfl, rfl, s.laneA.inc_bit0⟩
  · exact ⟨_, _, rfl, rfl, s.laneB.inc_bit0⟩

/-- A jump leaves the increment (R22, R143). -/
theorem laneJump_inc (l : Lane) (d : Word) : (laneJump l d).inc = l.inc := by
  rw [← Lane.incHi_eq_iff, laneJump_incHi]

/-- Settles O38: LaneStep and LaneJump write no increment, and the response touches none of the rest. -/
theorem drawAndJumpFrame : Obligations.DrawAndJumpFrame := by
  rintro i s t (rfl | ⟨d, rfl⟩) h
  · simp only [exec, execNext, Host.Outcome.next.injEq] at h
    subst h
    exact ⟨laneStep_inc _, laneStep_inc _, rfl, rfl, rfl, rfl⟩
  · simp only [exec, execAdvance, Host.Outcome.next.injEq] at h
    subst h
    exact ⟨laneJump_inc _ d, laneJump_inc _ d, rfl, rfl, rfl, rfl⟩

/-! ### The STATUS bits (R27 to R29) -/

/-- Settles O55: of the four things a step can do, reset alone clears a bit, a completed seeding alone sets SEEDED, and a
failed SEED_DRAW alone sets ENT_FAIL. -/
theorem statusBitsAreSticky : Obligations.StatusBitsAreSticky := by
  intro s t h
  rcases step_outcomes h with ⟨rest, hreset, rfl⟩ | hseeds | hfail | hkeep
  · refine ⟨fun _ => ⟨rest, hreset, rfl⟩, fun _ hs => ?_, fun i v _ _ hr => ?_, fun _ he => ?_, fun v hr => ?_⟩
    · cases hs
    · exact absurd hr.symm (List.cons_ne_self _ _)
    · cases he
    · exact absurd hr.symm (List.cons_ne_self _ _)
  · refine ⟨?_, fun _ _ => ⟨hseeds.inProgress, hseeds.responses⟩, fun _ _ _ _ _ => hseeds.seeded, ?_, fun v hr => ?_⟩
    · simp [hseeds.seeded, hseeds.entFail]
    · simp +contextual [hseeds.entFail]
    · simp [hseeds.responses] at hr
  · refine ⟨?_, ?_, fun i v _ _ hr => ?_, fun _ _ => ⟨hfail.inProgress, hfail.responses⟩,
      fun _ _ => ⟨hfail.inProgress, hfail.entFail⟩⟩
    · simp [hfail.seeded, hfail.entFail]
    · simp +contextual [hfail.seeded]
    · simp [hfail.responses] at hr
  · refine ⟨?_, ?_, fun i v hi hseed hr => absurd hr (hkeep.noSeeding i v hi hseed), ?_,
      fun v hr => absurd hr (hkeep.noEntropy v)⟩
    · simp [hkeep.seeded, hkeep.entFail]
    · simp +contextual [hkeep.seeded]
    · simp +contextual [hkeep.entFail]

/-- With other STATUS bits a command does the same but to those bits; READ_STATUS alone answers otherwise (R28, R29). -/
theorem exec_withStatus {i : Instr} {s t : State} (b e : Bool) (hi : i ≠ .readStatus) (h : exec i s = .next t) :
    ∃ b' e', exec i { s with seeded := b, entFail := e } = .next { t with seeded := b', entFail := e' } := by
  cases i with
  | seed a b c d => cases h; exact ⟨_, _, rfl⟩
  | seedBytes block =>
    simp only [exec, execSeedBytes] at h ⊢
    split at h
    next hl => cases h; exact ⟨_, _, by rw [if_pos hl]; rfl⟩
    next => cases h
  | seedDraw =>
    cases h
    obtain ⟨b', e', hw⟩ := awaitWords_status (drawCount - 1) (beginDraw s) b e
    exact ⟨b', e', congrArg Host.Outcome.next hw⟩
  | next => cases h; exact ⟨_, _, rfl⟩
  | advance d => cases h; exact ⟨_, _, rfl⟩
  | readState r => cases h; exact ⟨_, _, by cases r <;> rfl⟩
  | readStatus => exact absurd rfl hi

/-- NEXT and ADVANCE keep whatever STATUS bits they find (R124, R143). -/
theorem exec_drawOrJump_withStatus {i : Instr} {s t : State} (b e : Bool) (hi : i = .next ∨ ∃ d, i = .advance d)
    (h : exec i s = .next t) :
    exec i { s with seeded := b, entFail := e } = .next { t with seeded := b, entFail := e } := by
  rcases hi with rfl | ⟨d, rfl⟩ <;> cases h <;> rfl

/-- Settles O42: by the two lemmas above, READ_STATUS apart. -/
theorem statusGatesNothing : Obligations.StatusGatesNothing := by
  intro i s t b e h
  by_cases hi : i = .readStatus
  · subst hi
    cases h
    exact ⟨_, rfl, rfl, rfl, rfl, rfl, rfl, rfl, fun hne => absurd rfl hne, fun _ => ⟨_, _, rfl, rfl⟩, by simp⟩
  · obtain ⟨b', e', h'⟩ := exec_withStatus b e hi h
    refine ⟨_, h', rfl, rfl, rfl, rfl, rfl, rfl, fun _ => rfl, fun heq => absurd heq hi, fun hdj => ?_⟩
    exact Host.Outcome.next.inj (h'.symm.trans (exec_drawOrJump_withStatus b e hdj h))

/-! ### The order of commands (R32, R47) -/

/-- No command takes another from the port (R32). -/
theorem exec_commandsOf {i : Instr} {s t : State} (h : exec i s = .next t) : commandsOf t.inputs = commandsOf s.inputs := by
  rcases exec_cases h with ⟨_, -, -, hc, -⟩ | ⟨-, -, -, -, hc, -⟩
  · exact hc
  · exact hc

/-- A BUSY core takes no command (R216). -/
theorem step_busy_commandsOf {s t : State} (hb : s.activity = .busy) (h : step s = .next t) :
    commandsOf t.inputs = commandsOf s.inputs := by
  rcases hw : wake s.requests s.inputs with _ | ⟨a | _, rest⟩
  · rw [step_busy_none hb hw] at h
    cases h; rfl
  · rw [step_busy_answer hb ⟨a, rest, hw⟩] at h
    cases h; exact (resumeDraw_cases s).1
  · rw [step_busy_reset hb hw] at h
    cases h; exact wake_commandsOf hw

/-- An IDLE core runs the command at the head of its events, or answers it ILLEGAL (R69, R182). -/
theorem step_idle_command_cases {s t : State} {c : Transaction} {rest : List Input} (hidle : s.activity = .idle)
    (hin : s.inputs = .command c :: rest) (h : step s = .next t) :
    (∃ i, decode c = .ok i ∧ exec i (s.accept rest) = .next t) ∨
    (∃ why, decodeWord c.word = .error why ∧
      t = { s with inputs := rest, responses := { code := .illegal, result := 0#64 } :: s.responses }) := by
  rcases hd : decode c with (why | _) | i
  · rw [step_idle_illegal hidle hin hd, accept_raise_of_idle hidle] at h
    exact .inr ⟨why, decode_illegal_iff.mp hd, (Host.Outcome.next.inj h).symm⟩
  · rw [step_idle_beatCount hidle hin hd] at h
    cases h
  · rw [step_idle_ok hidle hin hd] at h
    exact .inl ⟨i, rfl, h⟩

/-- With no command at the head of its events an IDLE core takes none. -/
theorem step_idle_commandsOf {s t : State} (hidle : s.activity = .idle) (h : step s = .next t)
    (hno : ∀ c rest, s.inputs ≠ .command c :: rest ∧ s.inputs ≠ .commandCutByReset c :: rest) :
    commandsOf t.inputs = commandsOf s.inputs := by
  rcases hin : s.inputs with _ | ⟨c | c | ⟨n, a⟩ | _, rest⟩
  · rw [step_idle_nil hidle hin] at h
    cases h; rw [hin]
  · exact absurd hin (hno c rest).1
  · exact absurd hin (hno c rest).2
  · rw [step_idle_answer hidle hin] at h
    cases h; rfl
  · rw [step_idle_reset hidle hin] at h
    cases h; rfl

/-- Settles O47: by the event that reaches the core. -/
theorem commandsKeepTheirOrder : Obligations.CommandsKeepTheirOrder := by
  intro s t h
  refine ⟨fun hb => step_busy_commandsOf hb h, fun hidle =>
    ⟨fun c rest hin => ?_, fun c rest hin => ?_, step_idle_commandsOf hidle h⟩⟩
  · have hcases := step_idle_command_cases hidle hin h
    refine ⟨?_, hcases⟩
    rcases hcases with ⟨i, -, he⟩ | ⟨why, -, rfl⟩
    · exact exec_commandsOf he
    · rfl
  · rw [step_idle_cut hidle hin] at h
    cases h
    exact ⟨rfl, rfl⟩

/-! ### The entropy port's invariant (R31, R190) -/

/-- An IDLE core with an empty buffer is orderly. -/
theorem State.portOrderly_of_idle {s : State} (ha : s.activity = .idle) (hb : s.entropyBuf = []) : s.PortOrderly :=
  ⟨fun _ => hb, fun h => nomatch ha.symm.trans h⟩

/-- A BUSY core with fewer words than it needs and than it asked for is orderly. -/
theorem State.portOrderly_of_busy {s : State} (ha : s.activity = .busy) (hl : s.entropyBuf.length < drawCount)
    (hr : s.entropyBuf.length < s.requests) : s.PortOrderly :=
  ⟨fun h => (nomatch ha.symm.trans h), fun _ => ⟨hl, hr⟩⟩

/-- A command that finds the buffer empty leaves the port orderly. -/
theorem exec_portOrderly {i : Instr} {s t : State} (hbuf : s.entropyBuf = []) (h : exec i s = .next t) :
    t.PortOrderly := by
  rcases exec_cases h with ⟨_, -, ha, -, hb, -⟩ | ⟨-, -, -, -, -, ⟨-, ha, hb, -⟩ | ⟨-, ha, -, hl, hreq⟩⟩
  · exact State.portOrderly_of_idle ha (hb.elim (·.trans hbuf) id)
  · exact State.portOrderly_of_idle ha hb
  · exact State.portOrderly_of_busy ha hl (by omega)

/-- A SEED_DRAW that goes on leaves the port orderly. -/
theorem resumeDraw_portOrderly {s : State} (hb : s.activity = .busy) (hs : s.PortOrderly) :
    (resumeDraw s).PortOrderly := by
  obtain ⟨hl, hreq⟩ := hs.2 hb
  rcases (resumeDraw_cases s).2 with ⟨-, ha, hbuf, -⟩ | ⟨-, -, -, ⟨-, ha, hbuf, -⟩ | ⟨-, ha, -, n, hn, hr, hlen⟩⟩
  · exact State.portOrderly_of_idle ha hbuf
  · exact State.portOrderly_of_idle ha hbuf
  · exact State.portOrderly_of_busy (ha.trans hb) (by omega) (by omega)

/-- Settles O53: a case for each thing a step can do. -/
theorem portOrderlyIsInvariant : Obligations.PortOrderlyIsInvariant := by
  intro s t hs h
  rcases step_cases h with rfl | ⟨-, n, a, rest, -, rfl⟩ | ⟨rest, rfl, -⟩ | ⟨hidle, c, rest, -, -, rfl⟩ |
    ⟨hidle, c, rest, i, -, -, he⟩ | ⟨hb, -, rfl⟩
  · exact hs
  · exact hs
  · exact State.portOrderly_of_idle rfl rfl
  · exact State.portOrderly_of_idle rfl (hs.1 hidle)
  · exact exec_portOrderly (s := s.accept rest) (hs.1 hidle) he
  · exact resumeDraw_portOrderly hb hs

/-- Settles O54: the core is IDLE after reset and its buffer empty. -/
theorem portOrderlyAtReset : Obligations.PortOrderlyAtReset := State.portOrderly_of_idle rfl rfl

/-! ### Lock-step (R219) -/

/-- Lanes that are both stepped by one same count stay in step (R219). -/
theorem State.InStepSince.steps {s t : State} {a b c d : Word} {n : Nat} (h : s.InStepSince a b c d)
    (hA : t.laneA = laneSteps n s.laneA) (hB : t.laneB = laneSteps n s.laneB) : t.InStepSince a b c d := by
  obtain ⟨m, hmA, hmB⟩ := h
  exact ⟨m + n, by rw [hA, hmA, laneSteps_add], by rw [hB, hmB, laneSteps_add]⟩

/-- What a step can do to the lanes: reset them, seed them with its own words, or step both by one same count (R219). -/
theorem step_lanes_cases {s t : State} (hs : s.PortOrderly) (h : step s = .next t) :
    (∃ rest, s.ResetComes rest ∧ t = s.enterReset rest) ∨
    (∃ a b c d, s.StepSeedsWith a b c d ∧ t.laneA = seededLane a c ∧ t.laneB = seededLane b (laneBSeq c d) ∧
      t.seeded = true ∧ t.responses = { code := .ok, result := 0#64 } :: s.responses) ∨
    (∃ n, t.laneA = laneSteps n s.laneA ∧ t.laneB = laneSteps n s.laneB) := by
  rcases step_outcomes h with hreset | hseeds | hfail | hkeep
  · exact .inl hreset
  · obtain ⟨a, b, c, d, hw, hA, hB⟩ := hseeds.lanes
    exact .inr (.inl ⟨a, b, c, d, hw hs, hA, hB, hseeds.seeded, hseeds.responses⟩)
  · exact .inr (.inr ⟨0, hfail.laneA, hfail.laneB⟩)
  · exact .inr (.inr hkeep.lanes)

/-- Settles O56: the three cases, of which the second part leaves the last. -/
theorem lanesStayInLockStep : Obligations.LanesStayInLockStep := by
  intro s t hs h
  have hcases := step_lanes_cases hs h
  refine ⟨hcases, fun a b c d hstep hnoReset hnoSeed => ?_⟩
  rcases hcases with ⟨rest, hreset, -⟩ | ⟨a', b', c', d', hseed, -⟩ | ⟨n, hA, hB⟩
  · exact absurd hreset (hnoReset rest)
  · exact absurd hseed (hnoSeed a' b' c' d')
  · exact hstep.steps hA hB

end Sys2Proof.Machine
end

section
/-! PROOF. The memory family (`20_memory.md`): the little-endian words of a SEED_BYTES block (R42) and its length (R45). -/

namespace Sys2Proof.Machine

open Sys2Proof

/-! ### Little-endian numbers (R42) -/

/-- The number a list of bytes spells, least significant byte first. `blockWord_eq_leNat` ties it to the model. -/
def leNat (bytes : List Byte) : Nat := bytes.foldr (fun b acc => acc * 256 + b.toNat) 0

theorem leNat_cons (b : Byte) (bytes : List Byte) : leNat (b :: bytes) = 2 ^ 8 * leNat bytes + b.toNat := by
  simp only [leNat, List.foldr_cons]
  omega

/-- Bit `i` of the number is bit `i % 8` of byte `i / 8`, as for `blockWord`. -/
theorem leNat_testBit (bytes : List Byte) (i : Nat) :
    (leNat bytes).testBit i = (bytes.getD (i / 8) 0#8).getLsbD (i % 8) := by
  induction bytes generalizing i with
  | nil => simp [leNat]
  | cons b bytes ih =>
    rw [leNat_cons, Nat.testBit_two_pow_mul_add _ b.isLt]
    split
    · rename_i hlt
      rw [Nat.div_eq_of_lt hlt, Nat.mod_eq_of_lt hlt, List.getD_cons_zero, BitVec.getLsbD]
    · rename_i hge
      have hdiv : i / 8 = (i - 8) / 8 + 1 := by omega
      have hmod : i % 8 = (i - 8) % 8 := by omega
      rw [ih, hdiv, hmod, List.getD_cons_succ]

/-- Word `k` of a block is the little-endian number of its bytes `8k` to `8k+7` (R42). -/
theorem blockWord_eq_leNat (block : List Byte) (k : Nat) :
    blockWord block k = BitVec.ofNat 64 (leNat ((block.drop (8 * k)).take 8)) := by
  apply BitVec.eq_of_getLsbD_eq
  intro i hi
  have hbyte : i / 8 < 8 := by omega
  rw [blockWord_drop, blockWord_getLsbD _ _ _ hi, BitVec.getLsbD_ofNat, leNat_testBit]
  simp [List.getD_eq_getElem?_getD, hi, hbyte]

/-! ### SEED_BYTES by the block's length (R45, R107) -/

/-- SEED_BYTES of a 32-byte block is SEED of its four words in buffer order (R107). -/
theorem exec_seedBytes_eq_seed {block : List Byte} (h : block.length = 32) (s : State) :
    exec (.seedBytes block) s =
      exec (.seed (blockWord block 0) (blockWord block 1) (blockWord block 2) (blockWord block 3)) s := by
  simp only [exec, execSeedBytes, blockBytes, h, if_true, execSeed, SeedWords.ofBlock]

/-- Settles O11: the obligation's four words are the block's, and SEED of any words completes. -/
theorem seedBytesReadsLittleEndianWords : Obligations.SeedBytesReadsLittleEndianWords := by
  intro block s hlen w
  have hw : ∀ k, w k = blockWord block k := fun k => (blockWord_eq_leNat block k).symm
  obtain ⟨t, ht⟩ := exec_of_wf (i := .seed (w 0) (w 1) (w 2) (w 3)) s rfl
  refine ⟨?_, t, ?_, ht⟩
  · rw [hw, hw, hw, hw]
    rfl
  · rw [exec_seedBytes_eq_seed hlen, ← hw, ← hw, ← hw, ← hw, ht]

/-- Settles O13: the other branch of SEED_BYTES. -/
theorem wrongBlockLengthIsRefused : Obligations.WrongBlockLengthIsRefused := by
  intro block s hlen
  simp only [exec, execSeedBytes, blockBytes, hlen, if_false]

end Sys2Proof.Machine
end

section
/-! PROOF. The encoding family (`30_encoding.md`): the legal words (R67 to R69), operand beats (R65, R66, R70), decoding and
encoding as inverses (R61), the responses of a step (R60, R180), where a step stops (R70), and SKIP with JUMPBACK (R72). -/

namespace Sys2Proof.Machine

open Sys2Proof

/-! ### A block and its four beats (R42, R66) -/

/-- The bytes of a block's first word are its first eight bytes. -/
theorem bytesOfBeat_blockWord_zero {block : List Byte} (h : 8 ≤ block.length) :
    bytesOfBeat (blockWord block 0) = block.take 8 := by
  match block, h with
  | b0 :: b1 :: b2 :: b3 :: b4 :: b5 :: b6 :: b7 :: r, _ => exact bytesOfBeat_blockWord b0 b1 b2 b3 b4 b5 b6 b7 r

/-- The bytes of word `k` are bytes `8k` to `8k+7`. -/
theorem bytesOfBeat_blockWord_eq_take {block : List Byte} {k : Nat} (h : 8 * k + 8 ≤ block.length) :
    bytesOfBeat (blockWord block k) = (block.drop (8 * k)).take 8 := by
  rw [blockWord_drop]
  exact bytesOfBeat_blockWord_zero (by rw [List.length_drop]; omega)

/-- The bytes of the four words of a block are the block. -/
theorem bytesOfBeat_blockWords {block : List Byte} (h : block.length = 32) :
    bytesOfBeat (blockWord block 0) ++ bytesOfBeat (blockWord block 1) ++ bytesOfBeat (blockWord block 2) ++
      bytesOfBeat (blockWord block 3) = block := by
  have hlast : (block.drop 24).take 8 = block.drop 24 := List.take_of_length_le (by rw [List.length_drop]; omega)
  have hsplit : ∀ k, block.drop (8 * k) = (block.drop (8 * k)).take 8 ++ block.drop (8 * k + 8) := fun k => by
    rw [← List.drop_drop, List.take_append_drop]
  iterate 4 rw [bytesOfBeat_blockWord_eq_take (by omega)]
  calc _ = block.take 8 ++ ((block.drop 8).take 8 ++ ((block.drop 16).take 8 ++ (block.drop 24).take 8)) := by
        simp only [Nat.reduceMul, List.drop_zero, List.append_assoc]
    _ = block := by rw [hlast, ← hsplit 2, ← hsplit 1]; exact (hsplit 0).symm

/-- The four words of the bytes of four beats are the beats. -/
theorem blockWords_bytesOfBeats (a b c d : Word) :
    let block := bytesOfBeat a ++ bytesOfBeat b ++ bytesOfBeat c ++ bytesOfBeat d
    blockWord block 0 = a ∧ blockWord block 1 = b ∧ blockWord block 2 = c ∧ blockWord block 3 = d := by
  have hd : bytesOfBeat d = bytesOfBeat d ++ [] := (List.append_nil _).symm
  refine ⟨?_, ?_, ?_, ?_⟩
  · simp only [List.append_assoc, blockWord_bytesOfBeat_append]
  · rw [blockWord_drop, List.append_assoc, List.append_assoc]
    exact blockWord_bytesOfBeat_append b _
  · rw [blockWord_drop, List.append_assoc]
    exact blockWord_bytesOfBeat_append c _
  · rw [blockWord_drop, hd]
    exact blockWord_bytesOfBeat_append d _

/-! ### Decoding and encoding (R61, R65 to R68) -/

/-- A well-formed instruction's beats make it again (R65, R66). -/
theorem withBeats_beats {i : Instr} (h : i.wf = true) : i.command.withBeats i.beats = some i := by
  cases i with
  | seedBytes block =>
    have hlen : block.length = 32 := by simpa only [Instr.wf, blockBytes, beq_iff_eq] using h
    exact congrArg (fun bs => some (Instr.seedBytes bs)) (bytesOfBeat_blockWords hlen)
  | seed _ _ _ _ => rfl
  | seedDraw => rfl
  | next => rfl
  | advance _ => rfl
  | readState _ => rfl
  | readStatus => rfl

/-- What a command makes of beats is well formed, and has that command and those beats (R65, R66). -/
theorem withBeats_eq_some {c : Command} {bs : List Word} {i : Instr} (h : c.withBeats bs = some i) :
    i.wf = true ∧ i.command = c ∧ i.beats = bs := by
  cases c with
  | seed =>
    obtain ⟨a, b, c, d, rfl, rfl⟩ := operands4_eq_some.mp h
    exact ⟨rfl, rfl, rfl⟩
  | seedBytes =>
    obtain ⟨a, b, c, d, rfl, rfl⟩ := operands4_eq_some.mp h
    obtain ⟨ha, hb, hc, hd⟩ := blockWords_bytesOfBeats a b c d
    exact ⟨rfl, rfl, by rw [Instr.beats, ha, hb, hc, hd]⟩
  | advance =>
    obtain ⟨a, rfl, rfl⟩ := operands1_eq_some.mp h
    exact ⟨rfl, rfl, rfl⟩
  | seedDraw => obtain ⟨rfl, rfl⟩ := operands0_eq_some.mp h; exact ⟨rfl, rfl, rfl⟩
  | next => obtain ⟨rfl, rfl⟩ := operands0_eq_some.mp h; exact ⟨rfl, rfl, rfl⟩
  | readState r => obtain ⟨rfl, rfl⟩ := operands0_eq_some.mp h; exact ⟨rfl, rfl, rfl⟩
  | readStatus => obtain ⟨rfl, rfl⟩ := operands0_eq_some.mp h; exact ⟨rfl, rfl, rfl⟩

/-- A word decodes to a command exactly when it is that command's word (R67, R68). -/
theorem decodeWord_eq_ok_iff {w : BitVec 32} {c : Command} : decodeWord w = .ok c ↔ w = c.word :=
  ⟨decodeWord_ok, fun h => h ▸ decodeWord_word c⟩

section LegalWord

variable {t : Transaction} {c : Command} (hword : decodeWord t.word = .ok c)
include hword

/-- Under a legal word a transaction decodes to what its command makes of the beats (R68). -/
theorem decode_eq_ok_iff_withBeats {i : Instr} : decode t = .ok i ↔ c.withBeats t.beats = some i := by
  rw [decode, hword]
  rcases hb : c.withBeats t.beats with _ | j <;> simp [hb]

/-- Under a legal word it has a wrong beat count exactly when the command makes nothing of the beats (R70). -/
theorem decode_eq_beatCount_iff : decode t = .error .beatCount ↔ c.withBeats t.beats = none := by
  rw [decode, hword]
  rcases hb : c.withBeats t.beats with _ | j <;> simp [hb]

end LegalWord

/-- What decodes has a legal word. -/
theorem decodeWord_of_decode {t : Transaction} {i : Instr} (h : decode t = .ok i) :
    ∃ c, decodeWord t.word = .ok c := by
  rcases hw : decodeWord t.word with why | c
  · rw [decode_illegal_iff.mpr hw] at h
    cases h
  · exact ⟨c, rfl⟩

/-- Decoding and encoding are inverse: a transaction decodes to exactly the well-formed instruction it encodes. -/
theorem decode_eq_ok_iff {t : Transaction} {i : Instr} : decode t = .ok i ↔ i.wf = true ∧ encode i = t := by
  constructor
  · intro h
    obtain ⟨c, hw⟩ := decodeWord_of_decode h
    obtain ⟨hwf, rfl, hbeats⟩ := withBeats_eq_some ((decode_eq_ok_iff_withBeats hw).mp h)
    exact ⟨hwf, by rw [encode, hbeats, ← decodeWord_ok hw]⟩
  · rintro ⟨hwf, rfl⟩
    exact (decode_eq_ok_iff_withBeats (t := encode i) (decodeWord_word i.command)).mpr (withBeats_beats hwf)

/-- Settles O6: one direction of `decode_eq_ok_iff`. -/
theorem decodeOfEncode : Obligations.DecodeOfEncode := by
  intro i hwf
  exact decode_eq_ok_iff.mpr ⟨hwf, rfl⟩

/-- Settles O7: the other direction. -/
theorem encodeOfDecode : Obligations.EncodeOfDecode := by
  intro t i h
  exact decode_eq_ok_iff.mp h

/-! ### Legal and illegal words (R67, R69) -/

/-- Settles O3: the list holds each command's word with its beat count. -/
theorem legalWordsAreExactlyTen : Obligations.LegalWordsAreExactlyTen := by
  intro w c
  rw [decodeWord_eq_ok_iff]
  cases c with
  | readState r => cases r <;> simp [Command.word, Command.beatCount, mkWord, LaneReg.sel]
  | _ => simp [Command.word, Command.beatCount, mkWord]

/-- The three grounds of R69, on the fields of the word. -/
theorem decodeWord_eq_error_iff {w : BitVec 32} : (∃ why, decodeWord w = .error why) ↔
    fieldRsv w ≠ 0#22 ∨ fieldOp w ∉ [0x01#8, 0x02#8, 0x03#8, 0x10#8, 0x20#8, 0x30#8, 0x31#8] ∨
      (fieldSel w ≠ 0#2 ∧ fieldOp w ≠ 0x30#8) := by
  by_cases hrsv : fieldRsv w = 0#22
  · by_cases hread : fieldOp w = 0x30#8
    · simp [decodeWord, hrsv, hread]
    · by_cases hsel : fieldSel w = 0#2
      · simp only [decodeWord, hrsv, hread, hsel, ne_eq, not_true_eq_false, if_false, false_and, false_or, or_false,
          List.mem_cons, List.not_mem_nil, not_or]
        split_ifs <;> simp [*]
      · simp [decodeWord, hrsv, hread, hsel]
  · simp [decodeWord, hrsv]

/-- Settles O4: the fields are the obligation's slices, and an IDLE core answers such a word as `step_idle_illegal` says. -/
theorem illegalWordChangesNothing : Obligations.IllegalWordChangesNothing := by
  intro t illegal
  have hgrounds : illegal ↔ ∃ why, decodeWord t.word = .error why := by
    rw [decodeWord_eq_error_iff, fieldRsv, fieldOp, fieldSel]
  refine ⟨hgrounds, fun s rest hill hidle hin => ?_⟩
  obtain ⟨why, hword⟩ := hgrounds.mp hill
  rw [step_idle_illegal hidle hin (decode_illegal_iff.mpr hword), accept_raise_of_idle hidle]

/-- Settles O5: beats of the right number, and no others, make an instruction of the word's command. -/
theorem wrongBeatCountIsRefused : Obligations.WrongBeatCountIsRefused := by
  intro t c hword
  have hcount : (∃ i, decode t = .ok i) ↔ t.beats.length = c.beatCount := by
    simp only [decode_eq_ok_iff_withBeats hword, withBeats_isSome_iff]
  refine ⟨hcount, fun s rest hidle hin hne => ?_⟩
  have hnone : c.withBeats t.beats = none :=
    Option.eq_none_iff_forall_ne_some.mpr fun i hi => hne ((withBeats_isSome_iff c t.beats).mp ⟨i, hi⟩)
  exact step_idle_beatCount hidle hin ((decode_eq_beatCount_iff hword).mpr hnone)

/-- Settles O2: the legal words are their commands' words; the illegal ones are computed. -/
theorem opcodeMapWordsDecode : Obligations.OpcodeMapWordsDecode :=
  ⟨decodeWord_word .seed, decodeWord_word .seedBytes, decodeWord_word .seedDraw, decodeWord_word .next,
    decodeWord_word .advance, decodeWord_word (.readState .incA), decodeWord_word (.readState .stateB),
    decodeWord_word .readStatus, by decide, by decide, by decide, by decide⟩

/-! ### The response of a step (R60, R180) -/

/-- From `s` to `t` the core sends one response, with a result of 0 unless its code is OK, and is IDLE (R60, R180). -/
structure State.AnswersTo (s t : State) : Prop where
  activity : t.activity = .idle
  response : ∃ r : Response, t.responses = r :: s.responses ∧ (r.code ≠ .ok → r.result = 0#64)

/-- A command is answered, or it is a SEED_DRAW that waits (R60). -/
theorem exec_answers_or_waits {i : Instr} {s t : State} (h : exec i s = .next t) :
    s.AnswersTo t ∨ (t.activity = .busy ∧ t.responses = s.responses ∧ i = .seedDraw) := by
  rcases exec_cases h with ⟨v, hr, ha, -⟩ | ⟨hi, -, -, -, -, ⟨hr, ha, -⟩ | ⟨hr, ha, -⟩⟩
  · exact .inl ⟨ha, _, hr, fun hne => absurd rfl hne⟩
  · exact .inl ⟨ha, _, hr, fun _ => rfl⟩
  · exact .inr ⟨ha, hr, hi⟩

/-- A SEED_DRAW that goes on is answered, or waits for the next word (R109, R110). -/
theorem resumeDraw_answers_or_waits (s : State) :
    s.AnswersTo (resumeDraw s) ∨ (resumeDraw s).responses = s.responses := by
  rcases (resumeDraw_cases s).2 with ⟨hr, ha, -⟩ | ⟨-, -, -, ⟨hr, ha, -⟩ | ⟨hr, -⟩⟩
  · exact .inl ⟨ha, _, hr, fun _ => rfl⟩
  · exact .inl ⟨ha, _, hr, fun _ => rfl⟩
  · exact .inr hr

/-- A step sends nothing, or one response. -/
theorem step_responses {s t : State} (h : step s = .next t) : t.responses = s.responses ∨ s.AnswersTo t := by
  rcases step_cases h with rfl | ⟨-, n, a, rest, -, rfl⟩ | ⟨rest, rfl, -⟩ | ⟨-, c, rest, -, -, rfl⟩ |
    ⟨-, c, rest, i, -, -, he⟩ | ⟨-, -, rfl⟩
  · exact .inl rfl
  · exact .inl rfl
  · exact .inl rfl
  · exact .inr ⟨rfl, _, rfl, fun _ => rfl⟩
  · rcases exec_answers_or_waits he with ⟨ha, hr⟩ | ⟨-, hr, -⟩
    · exact .inr ⟨ha, hr⟩
    · exact .inl hr
  · exact (resumeDraw_answers_or_waits s).symm

/-- The CODE of a response is 0, 1 or 2 (R180). -/
theorem Code.bits_cases (c : Code) : c.bits = 0#4 ∨ c.bits = 1#4 ∨ c.bits = 2#4 := by cases c <;> decide

/-- Settles O43: OK alone has CODE 0. -/
theorem oneResponseAtMostPerStep : Obligations.OneResponseAtMostPerStep := by
  intro s t h
  refine (step_responses h).imp_right fun hans => ?_
  obtain ⟨r, hr, hzero⟩ := hans.response
  refine ⟨r, hr, hans.activity, r.code.bits_cases, fun hbits => hzero fun hok => hbits ?_⟩
  rw [hok, Code.bits]

/-- Settles O44: the step is the command's own, run in the accepted state, which has the same responses. -/
theorem acceptedCommandIsAnswered : Obligations.AcceptedCommandIsAnswered := by
  intro s t c rest i hidle hin hd h
  rw [step_idle_ok hidle hin hd] at h
  refine (exec_answers_or_waits h).imp_left fun hans => ?_
  obtain ⟨r, hr, -⟩ := hans.response
  exact ⟨hans.activity, r, hr⟩

/-! ### Where a step stops (R70, I7) -/

/-- A BUSY core always has a next state (R184, R216). -/
theorem step_busy_isNext {s : State} (hbusy : s.activity = .busy) : ∃ t, step s = .next t := by
  rcases hw : wake s.requests s.inputs with _ | ⟨a | _, rest⟩
  · exact ⟨_, step_busy_none hbusy hw⟩
  · exact ⟨_, step_busy_answer hbusy ⟨a, rest, hw⟩⟩
  · exact ⟨_, step_busy_reset hbusy hw⟩

/-- An IDLE core that takes a transaction has a next state, but for a wrong beat count: what decodes is well formed. -/
theorem step_idle_command_isNext {s : State} {c : Transaction} {rest : List Input} (hidle : s.activity = .idle)
    (hin : s.inputs = .command c :: rest) (hd : decode c ≠ .error .beatCount) : ∃ t, step s = .next t := by
  rcases hdec : decode c with (why | _) | i
  · exact ⟨_, step_idle_illegal hidle hin hdec⟩
  · exact absurd hdec hd
  · rw [step_idle_ok hidle hin hdec]
    exact exec_of_wf _ (decode_eq_ok_iff.mp hdec).1

/-- Settles O46: by the event that reaches the core. -/
theorem stepStopsOnlyOnBeatCount : Obligations.StepStopsOnlyOnBeatCount := by
  intro s
  rcases ha : s.activity with _ | _
  · rcases hin : s.inputs with _ | ⟨c | c | ⟨n, a⟩ | _, rest⟩
    · exact .inl ⟨_, step_idle_nil ha hin⟩
    · by_cases hd : decode c = .error .beatCount
      · exact .inr ⟨step_idle_beatCount ha hin hd, c, rest, rfl, rfl, hd⟩
      · exact .inl (step_idle_command_isNext ha hin hd)
    · exact .inl ⟨_, step_idle_cut ha hin⟩
    · exact .inl ⟨_, step_idle_answer ha hin⟩
    · exact .inl ⟨_, step_idle_reset ha hin⟩
  · exact .inl (step_busy_isNext ha)

/-! ### SKIP and JUMPBACK (R72, R146) -/

/-- The map of `2^k` steps: each doubling gives the additive part one more factor 2, and the multiplier, which is odd, one more
bit in which it agrees with 1 (R141). -/
theorem Lane.stepsAs_two_pow (l : Lane) (k : Nat) :
    ∃ a b : Word, l.StepsAs (2 ^ k) (1 + 2 ^ (k + 1) * a) (2 ^ k * b) := by
  induction k with
  | zero =>
    obtain ⟨a, hodd⟩ : ∃ a : Word, 1 + 2 ^ (0 + 1) * a = mult := ⟨mult >>> 1, by decide⟩
    refine ⟨a, l.inc, ?_⟩
    rw [hodd, pow_zero, pow_zero, one_mul]
    exact l.stepsAs_one
  | succ k ih =>
    obtain ⟨a, b, h⟩ := ih
    refine ⟨a + 2 ^ k * a * a, b * (1 + 2 ^ k * a), ?_⟩
    have hmult : (1 + 2 ^ (k + 1) * a) * (1 + 2 ^ (k + 1) * a) =
        1 + 2 ^ (k + 1 + 1) * (a + 2 ^ k * a * a) := by ring
    have hplus : 2 ^ k * b * (1 + 2 ^ (k + 1) * a) + 2 ^ k * b =
        2 ^ (k + 1) * (b * (1 + 2 ^ k * a)) := by ring
    have hsteps : 2 ^ (k + 1) = 2 ^ k + 2 ^ k := by ring
    rw [hsteps, ← hmult, ← hplus]
    exact h.add h

/-- A lane is back where it was after 2^64 steps (R146). -/
theorem laneSteps_two_pow_64 (l : Lane) : laneSteps (2 ^ 64) l = l := by
  obtain ⟨a, b, h⟩ := l.stepsAs_two_pow 64
  have h64 : (2 : Word) ^ 64 = 0 := BitVec.eq_of_toNat_eq (by rw [BitVec.toNat_pow]; rfl)
  have h65 : (2 : Word) ^ (64 + 1) = 0 := by rw [pow_succ, h64, zero_mul]
  have hid := h l.state
  rw [h65, h64, zero_mul, zero_mul, add_zero, add_zero, one_mul] at hid
  exact hid

/-- A jump and its negative leave the lane as it was (R146). -/
theorem laneJump_neg_laneJump (l : Lane) (d : Word) : laneJump (laneJump l d) (-d) = l := by
  rw [laneJump_eq_laneSteps, laneJump_eq_laneSteps, ← laneSteps_add, BitVec.toNat_neg]
  by_cases h0 : d.toNat = 0
  · rw [h0, Nat.sub_zero, Nat.mod_self, Nat.add_zero, laneSteps_zero]
  · have hlt := d.isLt
    have hsum : d.toNat + (2 ^ 64 - d.toNat) % 2 ^ 64 = 2 ^ 64 := by omega
    rw [hsum, laneSteps_two_pow_64]

/-- ADVANCE jumps both lanes and answers OK (R143). -/
theorem exec_advance (d : Word) (s : State) :
    exec (.advance d) s = .next ((s.setLanes (laneJump s.laneA d) (laneJump s.laneB d)).respond .ok 0#64) := rfl

/-- The operand of a negated count is the negated operand (R8, R140). -/
theorem u64_neg (n : Int) : u64 (-n) = -u64 n := BitVec.ofInt_neg

/-- Settles O33: the two pseudo-commands are a jump and its negative, in both lanes. -/
theorem jumpbackUndoesSkip : Obligations.JumpbackUndoesSkip := by
  intro n s
  refine ⟨_, _, _, _, rfl, rfl, exec_advance _ _, exec_advance _ _, ?_, ?_⟩
  · rw [u64_neg]
    exact laneJump_neg_laneJump _ _
  · rw [u64_neg]
    exact laneJump_neg_laneJump _ _

end Sys2Proof.Machine
end

section
/-! PROOF. The seeding family (`40_seeding.md`): LaneSeed and its sequence id (R100 to R102), the distinct increments (R104),
the two value paths (R106 to R108), and what a completed seeding depends on (R109, R112). -/

namespace Sys2Proof.Machine

open Sys2Proof

/-! ### The sequence id (R100, R101) -/

/-- The increment LaneSeed writes is bits 62..0 of the sequence id above a 1 (R101). -/
theorem seedInc_eq_append (q : Word) : (q <<< 1) ||| 1#64 = q.setWidth 63 ++ 1#1 := by
  have hread := Lane.inc_setInc { state := 0#64, incHi := 0#63 } ((q <<< 1) ||| 1#64)
  rw [Lane.inc, Lane.setInc_incHi, seedInc_hi, BitVec.or_assoc, BitVec.or_self] at hread
  exact hread.symm

/-- A seeded lane depends on bits 62..0 of its sequence id alone (R101). -/
theorem seededLane_congr {q q' : Word} (v : Word) (h : q.setWidth 63 = q'.setWidth 63) :
    seededLane v q = seededLane v q' := by
  simp only [seededLane, seedInc_eq_append, h]

/-- Settles O9: LaneSeed leaves `seededLane`, which reads the sequence id through `setWidth 63`. -/
theorem sequenceBit63IsDiscarded : Obligations.SequenceBit63IsDiscarded := by
  intro v q q' l
  rw [← BitVec.setWidth_eq_extractLsb' (by decide), ← BitVec.setWidth_eq_extractLsb' (by decide)]
  refine ⟨by rw [Lane.inc, laneSeed_incHi], fun h => ?_⟩
  rw [laneSeed_eq_seededLane, laneSeed_eq_seededLane, seededLane_congr v h]

/-! ### SEED and SEED_BYTES (R106 to R108) -/

/-- Settles O8: GenSeed in closed form, and the response. -/
theorem seedSetsBothLanes : Obligations.SeedSetsBothLanes := by
  intro seed1 seed2 seq1 seq2 s
  refine ⟨rfl, ?_⟩
  rw [exec, execSeed, genSeed_eq]
  rfl

/-- Byte `j` of a word, as a number (R8, R42). -/
theorem ofNat_div_eq_extractLsb' (v : Word) (j : Nat) : BitVec.ofNat 8 (v.toNat / 256 ^ j) = v.extractLsb' (8 * j) 8 := by
  have hpow : 256 ^ j = 2 ^ (8 * j) := by rw [Nat.pow_mul]
  rw [BitVec.extractLsb', Nat.shiftRight_eq_div_pow, hpow]

/-- The bytes of a beat are its eight base-256 digits, the lowest first (R66). -/
theorem bytesOfBeat_eq_digits (v : Word) :
    (List.range 8).map (fun j => BitVec.ofNat 8 (v.toNat / 256 ^ j)) = bytesOfBeat v := by
  simp only [ofNat_div_eq_extractLsb']
  rfl

/-- Settles O12: the block is the bytes of four beats, and reading it as four words gives the beats back. -/
theorem seedBytesAgreesWithSeed : Obligations.SeedBytesAgreesWithSeed := by
  intro a b c d s bytes
  have hbytes : ∀ v, bytes v = bytesOfBeat v := bytesOfBeat_eq_digits
  obtain ⟨ha, hb, hc, hd⟩ := blockWords_bytesOfBeats a b c d
  rw [hbytes, hbytes, hbytes, hbytes, exec_seedBytes_eq_seed rfl, ha, hb, hc, hd]

/-- SEED and SEED_BYTES, where they complete, are GenSeed of words that the command alone fixes, and the response OK (R106,
R107). -/
theorem exec_seedByValue {i : Instr} (hi : (∃ a b c d, i = .seed a b c d) ∨ ∃ block, i = .seedBytes block) :
    ∃ w : SeedWords, ∀ s t, exec i s = .next t → t = (genSeed w s).respond .ok 0#64 := by
  rcases hi with ⟨a, b, c, d, rfl⟩ | ⟨block, rfl⟩
  · exact ⟨⟨a, b, c, d⟩, fun s t h => (Host.Outcome.next.inj h).symm⟩
  · refine ⟨SeedWords.ofBlock block, fun s t h => ?_⟩
    rw [exec, execSeedBytes] at h
    split at h
    · exact (Host.Outcome.next.inj h).symm
    · cases h

/-- Bit 1 of STATUS is ENT_FAIL (R27, R29). -/
theorem State.status_bit1 (s : State) : s.status.getLsbD 1 = s.entFail := by
  rw [State.status_eq, statusWord_getLsbD, if_neg one_ne_zero, if_pos rfl]

/-- Settles O40: neither GenSeed nor the response writes any of these. -/
theorem seedingFrame : Obligations.SeedingFrame := by
  intro i s t hi h
  obtain ⟨w, hw⟩ := exec_seedByValue hi
  rw [hw s t h, genSeed_eq, State.status_bit1, State.status_bit1]
  exact ⟨rfl, rfl, rfl, rfl⟩

/-! ### The lanes a seeding leaves (R104, R112) -/

/-- Both lanes are as GenSeed of these words leaves them (R105). -/
def State.SeededWith (t : State) (a b c d : Word) : Prop :=
  t.laneA = seededLane a c ∧ t.laneB = seededLane b (laneBSeq c d)

/-- Such lanes have different increments (R104). -/
theorem State.SeededWith.inc_ne {t : State} {a b c d : Word} (h : t.SeededWith a b c d) : t.x .incA ≠ t.x .incB := by
  rw [State.x_incA, State.x_incB, h.1, h.2]
  exact seededLane_inc_ne (laneBSeq_setWidth_ne c d)

/-- The words fix the lanes (R112). -/
theorem State.SeededWith.lanes_eq {t t' : State} {a b c d : Word} (h : t.SeededWith a b c d)
    (h' : t'.SeededWith a b c d) : t.laneA = t'.laneA ∧ t.laneB = t'.laneB :=
  ⟨h.1.trans h'.1.symm, h.2.trans h'.2.symm⟩

theorem genSeed_seededWith (w : SeedWords) (s : State) : (genSeed w s).SeededWith w.seed1 w.seed2 w.seq1 w.seq2 := by
  rw [genSeed_eq]
  exact ⟨rfl, rfl⟩

/-- So SEED and SEED_BYTES leave lanes that the command alone fixes (R106, R107). -/
theorem exec_seedByValue_seededWith {i : Instr}
    (hi : (∃ a b c d, i = .seed a b c d) ∨ ∃ block, i = .seedBytes block) :
    ∃ a b c d, ∀ s t, exec i s = .next t → t.SeededWith a b c d := by
  obtain ⟨w, hw⟩ := exec_seedByValue hi
  refine ⟨w.seed1, w.seed2, w.seq1, w.seq2, fun s t h => ?_⟩
  rw [hw s t h]
  exact genSeed_seededWith w s

/-- A SEED_DRAW that answers OK has seeded the lanes (R109). -/
theorem exec_seedDraw_ok_seededWith {s t : State} {r : Word} (h : exec .seedDraw s = .next t)
    (hr : t.responses = { code := .ok, result := r } :: s.responses) : ∃ a b c d, t.SeededWith a b c d := by
  rcases exec_cases h with ⟨v, -, -, -, -, -, ⟨-, -, -, a, b, c, d, -, hlanes⟩ | ⟨-, hno, -⟩⟩ |
    ⟨-, -, -, -, -, ⟨hfail, -⟩ | ⟨hwait, -⟩⟩
  · exact ⟨a, b, c, d, hlanes⟩
  · exact absurd (.inr (.inr rfl)) hno
  · simp [hfail] at hr
  · simp [hwait] at hr

/-- Settles O10: each of them leaves lanes of some seed words. -/
theorem seedingMakesIncrementsDistinct : Obligations.SeedingMakesIncrementsDistinct := by
  refine ⟨fun w s => (genSeed_seededWith w s).inc_ne, fun i s t hi h => ?_, fun s t r h hr => ?_⟩
  · obtain ⟨a, b, c, d, hseeded⟩ := exec_seedByValue_seededWith hi
    exact (hseeded s t h).inc_ne
  · obtain ⟨a, b, c, d, hseeded⟩ := exec_seedDraw_ok_seededWith h hr
    exact hseeded.inc_ne

/-- SEED_DRAW leaves the lanes of the four words that answer it (R109). -/
theorem exec_seedDraw_seededWith {a b c d : Word} {s t : State} {rest : List Input}
    (hw : WordsArrive (s.requests + 1) s.inputs [a, b, c, d] rest) (h : exec .seedDraw s = .next t) :
    t.SeededWith a b c d := by
  rw [seedDrawUsesFourWords a b c d s rest hw] at h
  cases h
  exact ⟨rfl, rfl⟩

/-- So does one that had to wait, with the words it had and those that arrive (R109, R190). -/
theorem step_seedDraw_seededWith {a b c d : Word} {s t : State} {ws : List Word} {rest : List Input}
    (hbusy : s.activity = .busy) (hbuf : s.entropyBuf ++ ws = [a, b, c, d]) (hne : ws ≠ [])
    (hw : WordsArrive s.requests s.inputs ws rest) (h : step s = .next t) : t.SeededWith a b c d := by
  rw [waitingSeedDrawCompletes a b c d s ws rest hbusy hbuf hne hw] at h
  cases h
  exact ⟨rfl, rfl⟩

/-- Settles O19: from either state each of them leaves the lanes of the same seed words. -/
theorem reseedingIsHistoryFree : Obligations.ReseedingIsHistoryFree := by
  refine ⟨fun i s s' t t' hi h h' => ?_, fun ws s s' t t' rest rest' hl hw hw' h h' => ?_,
    fun a b c d s s' t t' ws ws' rest rest' hb hbuf hne hw hb' hbuf' hne' hw' h h' => ?_⟩
  · obtain ⟨a, b, c, d, hseeded⟩ := exec_seedByValue_seededWith hi
    exact (hseeded s t h).lanes_eq (hseeded s' t' h')
  · obtain ⟨a, b, c, d, rfl⟩ := List.length_eq_four.mp hl
    exact (exec_seedDraw_seededWith hw h).lanes_eq (exec_seedDraw_seededWith hw' h')
  · exact (step_seedDraw_seededWith hb hbuf hne hw h).lanes_eq (step_seedDraw_seededWith hb' hbuf' hne' hw' h')

/-! ### The codes `exec` answers (R110, R180) -/

/-- Settles O45: a command that answers has completed with OK, or is a SEED_DRAW that failed. -/
theorem entropyCodeOnlyFromSeedDraw : Obligations.EntropyCodeOnlyFromSeedDraw := by
  intro i s t r h hr
  rcases exec_cases h with ⟨v, hok, -⟩ | ⟨hi, -, -, -, -, ⟨hfail, -, -, he⟩ | ⟨hwait, -⟩⟩
  · rw [hok] at hr
    cases hr
    exact .inl rfl
  · rw [hfail] at hr
    cases hr
    exact .inr ⟨rfl, hi, he⟩
  · exact absurd (hr.symm.trans hwait) (List.cons_ne_self _ _)

end Sys2Proof.Machine
end

section
/-! PROOF. The draw family (`41_draw.md`): the XSH-RR output (R121, R122, R127), what NEXT answers and leaves (R123 to R125)
and the period of a lane (R126). -/

namespace Sys2Proof.Machine

open Sys2Proof

/-! ### The rotation (R122) -/

/-- The left shift of the rotation: 32 - r, and 0 where r is 0 (R122). -/
theorem rotr32_leftCount {r : Half} (h : r.toNat ≤ 31) :
    ((32#32 - r) &&& 31#32).toNat = if r.toNat = 0 then 0 else 32 - r.toNat := by
  have hmask : ((32#32 - r) &&& 31#32).toNat = (32#32 - r).toNat % 32 := Nat.and_two_pow_sub_one_eq_mod _ 5
  have hle : r ≤ 32#32 := BitVec.le_def.mpr (Nat.le_succ_of_le h)
  rw [hmask, BitVec.toNat_sub_of_le hle, BitVec.toNat_ofNat]
  split <;> omega

/-- Settles O21: a rotation by 0 makes no left shift, and every other one shifts the bits it drops back in. -/
theorem rotr32IsRotateRight : Obligations.Rotr32IsRotateRight := by
  intro x r h
  have hmod : r.toNat % 32 = r.toNat := Nat.mod_eq_of_lt (Nat.lt_succ_of_le h)
  rw [rotr32, BitVec.rotateRight_def, hmod, BitVec.ushiftRight_eq', BitVec.shiftLeft_eq', rotr32_leftCount h]
  by_cases h0 : r.toNat = 0
  · rw [if_pos h0, h0, BitVec.ushiftRight_zero, BitVec.shiftLeft_zero, BitVec.or_self,
      BitVec.shiftLeft_eq_zero (Nat.le_refl 32), BitVec.or_zero]
  · rw [if_neg h0]

/-! ### The state bits an output reads (R121, R127) -/

/-- A bit of the xor-shifted half; above bit 18 the second term is a zero shifted in (R127). -/
theorem xorShifted_getLsbD (s : Word) {i : Nat} (hi : i < 32) :
    (xorShifted s).getLsbD i = ((s.getLsbD (i + 27)) ^^ (s.getLsbD (i + 45))) := by
  have h45 : 18 + (i + 27) = i + 45 := by omega
  simp only [xorShifted, BitVec.getLsbD_setWidth, BitVec.getLsbD_ushiftRight, BitVec.getLsbD_xor, hi, decide_true,
    Bool.true_and, h45, Nat.add_comm 27 i, Bool.xor_comm]

/-- The half is bits 58..27 of the state and its shifted copy (R121). -/
theorem xorShifted_eq_extractLsb' (s : Word) : xorShifted s = (s ^^^ (s >>> 18)).extractLsb' 27 32 := by
  refine BitVec.eq_of_getLsbD_eq fun i hi => ?_
  have h45 : 18 + (i + 27) = i + 45 := by omega
  simp only [xorShifted_getLsbD s hi, BitVec.getLsbD_extractLsb', BitVec.getLsbD_xor, BitVec.getLsbD_ushiftRight, hi,
    decide_true, Bool.true_and, h45, Nat.add_comm 27 i]

/-- The count is bits 63..59 of the state (R121, R127). -/
theorem rotationCount_eq_extractLsb' (s : Word) : rotationCount s = (s.extractLsb' 59 5).setWidth 32 := by
  refine BitVec.eq_of_toNat_eq ?_
  have hlt := s.isLt
  simp only [rotationCount, BitVec.toNat_setWidth, BitVec.toNat_ushiftRight, BitVec.extractLsb'_toNat,
    Nat.shiftRight_eq_div_pow]
  omega

theorem rotationCount_toNat (s : Word) : (rotationCount s).toNat = (s.extractLsb' 59 5).toNat := by
  rw [rotationCount_eq_extractLsb', BitVec.toNat_setWidth_of_le (by decide)]

/-- XSH-RR: the half rotated right by the count (R121, R122). -/
theorem permute_eq_rotateRight (s : Word) :
    permute s = ((s ^^^ (s >>> 18)).extractLsb' 27 32).rotateRight (s.extractLsb' 59 5).toNat := by
  have hcount : (rotationCount s).toNat ≤ 31 := by
    rw [rotationCount_toNat]
    exact Nat.le_of_lt_succ (s.extractLsb' 59 5).isLt
  rw [permute, rotr32IsRotateRight _ _ hcount, xorShifted_eq_extractLsb', rotationCount_toNat]

/-- States that agree in bits 63..27 as a field agree in each of them. -/
theorem getLsbD_eq_of_upper_eq {s s' : Word} (h : s.extractLsb' 27 37 = s'.extractLsb' 27 37) {j : Nat} (hj : 27 ≤ j) :
    s.getLsbD j = s'.getLsbD j := by
  by_cases hlt : j < 64
  · have hi : j - 27 < 37 := by omega
    have hbit := congrArg (BitVec.getLsbD · (j - 27)) h
    simpa only [BitVec.getLsbD_extractLsb', hi, decide_true, Bool.true_and, Nat.add_sub_of_le hj] using hbit
  · rw [BitVec.getLsbD_of_ge _ _ (by omega), BitVec.getLsbD_of_ge _ _ (by omega)]

/-- Bits 26..0 enter neither the half nor the count (R127). -/
theorem permute_congr_upper {s s' : Word} (h : s.extractLsb' 27 37 = s'.extractLsb' 27 37) : permute s = permute s' := by
  have hhalf : xorShifted s = xorShifted s' := BitVec.eq_of_getLsbD_eq fun i hi => by
    rw [xorShifted_getLsbD s hi, xorShifted_getLsbD s' hi, getLsbD_eq_of_upper_eq h (by omega),
      getLsbD_eq_of_upper_eq h (by omega)]
  have hcount : s.extractLsb' 59 5 = s'.extractLsb' 59 5 := BitVec.eq_of_getLsbD_eq fun i hi => by
    rw [BitVec.getLsbD_extractLsb', BitVec.getLsbD_extractLsb', getLsbD_eq_of_upper_eq h (by omega)]
  rw [permute, permute, hhalf, rotationCount_eq_extractLsb', rotationCount_eq_extractLsb', hcount]

/-- Settles O22: the two formulas are one, bit `i + 45` being past the word from 19 on; the three examples are computed. -/
theorem outputReadsTheUpperStateBits : Obligations.OutputReadsTheUpperStateBits := by
  refine ⟨fun s i hi => xorShifted_getLsbD s (by omega), fun s i h19 h31 => ?_, rotationCount_eq_extractLsb',
    fun s s' => permute_congr_upper, by decide, by decide, by decide⟩
  rw [xorShifted_getLsbD s (by omega), BitVec.getLsbD_of_ge s (i + 45) (by omega), Bool.xor_false]

/-! ### NEXT (R123 to R125) -/

/-- NEXT draws from both lanes and steps both (R124). -/
theorem exec_next (s : State) : exec .next s = .next ((s.setLanes (laneStep s.laneA) (laneStep s.laneB)).respond .ok
    (permute s.laneA.state ++ permute s.laneB.state)) := by
  simp only [exec, execNext, laneNext]

/-- Settles O20: the outputs are rotations of the states before the step. -/
theorem nextDrawsAndStepsBothLanes : Obligations.NextDrawsAndStepsBothLanes := by
  intro s out stepped
  refine ⟨by decide, ?_⟩
  rw [exec_next, permute_eq_rotateRight, permute_eq_rotateRight]
  rfl

/-- A NEXT that answers `r` has put the outputs of the two lanes in it (R43, R124). -/
theorem exec_next_answer {s t : State} {r : Word} (h : exec .next s = .next t)
    (hr : t.responses = { code := .ok, result := r } :: s.responses) :
    r = permute s.laneA.state ++ permute s.laneB.state ∧ t.laneA = laneStep s.laneA ∧ t.laneB = laneStep s.laneB := by
  rw [exec_next] at h
  cases h
  simp only [State.respond_responses, State.setLanes_responses, List.cons.injEq, Response.mk.injEq, true_and,
    and_true] at hr
  exact ⟨hr.symm, by simp only [State.respond_laneA, State.setLanes_laneA],
    by simp only [State.respond_laneB, State.setLanes_laneB]⟩

/-- Settles O23: each half is the permutation of its lane's state, and each new lane the step of its lane. -/
theorem lanesAreIndependent : Obligations.LanesAreIndependent := by
  intro s s' t t' r r' h h' hr hr'
  obtain ⟨hout, hA, hB⟩ := exec_next_answer h hr
  obtain ⟨hout', hA', hB'⟩ := exec_next_answer h' hr'
  rw [hout, hout', hA, hA', hB, hB']
  refine ⟨fun heq => ?_, fun heq => ?_, fun heq => by rw [heq], fun heq => by rw [heq]⟩
  · rw [BitVec.extractLsb'_append_eq_left, BitVec.extractLsb'_append_eq_left, heq]
  · rw [BitVec.extractLsb'_append_eq_right, BitVec.extractLsb'_append_eq_right, heq]

/-- `n` NEXT commands step each lane `n` times (R124, R144). -/
theorem afterNexts_lanes (n : Nat) (s : State) :
    (afterNexts n s).laneA = laneSteps n s.laneA ∧ (afterNexts n s).laneB = laneSteps n s.laneB := by
  induction n generalizing s with
  | zero => exact ⟨rfl, rfl⟩
  | succ n ih =>
    rw [afterNexts_succ, laneSteps_succ, laneSteps_succ]
    exact ih _

/-! ### The period of a lane (R126) -/

/-- The factor 2 divides `1 + m + … + m^(n-1)` exactly as often as `n`, where `m` is 1 modulo 4: lifting the exponent in
`m^n - 1 = (1 + m + … + m^(n-1)) * (m - 1)`. -/
theorem emultiplicity_two_geomSum {m : ℤ} (h4 : 4 ∣ m - 1) (h1 : m ≠ 1) (n : Nat) :
    emultiplicity 2 (∑ i ∈ Finset.range n, m ^ i) = emultiplicity (2 : ℤ) n := by
  have hodd : ¬ 2 ∣ m := by omega
  have hfinite : emultiplicity 2 (m - 1) ≠ ⊤ :=
    finiteMultiplicity_iff_emultiplicity_ne_top.mp (Int.finiteMultiplicity_iff.mpr ⟨by decide, sub_ne_zero.mpr h1⟩)
  have hlift := Int.two_pow_sub_pow' n h4 hodd
  rw [one_pow, ← geom_sum_mul, emultiplicity_mul Int.prime_two, add_comm] at hlift
  exact ENat.add_right_injective_of_ne_top hfinite hlift

/-- `1 + mult + … + mult^(n-1)`: `n` steps come to this many times the first one (R120). -/
def stepSum (n : Nat) : Nat := ∑ i ∈ Finset.range n, mult.toNat ^ i

theorem stepSum_zero : stepSum 0 = 0 := rfl

theorem stepSum_succ (n : Nat) : stepSum (n + 1) = mult.toNat * stepSum n + 1 := geom_sum_succ

/-- The powers of 2 in `stepSum n` are those in `n`, because `mult` is 1 modulo 4 (R24). -/
theorem two_pow_dvd_stepSum_iff (k n : Nat) : 2 ^ k ∣ stepSum n ↔ 2 ^ k ∣ n := by
  have hsum := emultiplicity_two_geomSum (m := mult.toNat) (by decide) (by decide) n
  have hint : ∀ j : Nat, 2 ^ k ∣ j ↔ (2 : ℤ) ^ k ∣ j := fun j => by exact_mod_cast Int.natCast_dvd_natCast.symm
  rw [hint, hint, pow_dvd_iff_le_emultiplicity, pow_dvd_iff_le_emultiplicity, ← hsum, stepSum]
  push_cast
  rfl

/-- How far the next step takes the lane's state (R120). -/
def Lane.stride (l : Lane) : Word := (laneStep l).state - l.state

/-- Each step goes `mult` times as far as the one before. -/
theorem laneStep_stride (l : Lane) : (laneStep l).stride = mult * l.stride := by
  simp only [Lane.stride, laneStep_state, laneStep_inc]
  ring

/-- The increment is odd, so a step changes bit 0 of the state (R22, R24). -/
theorem Lane.stride_odd (l : Lane) : l.stride.toNat % 2 = 1 := by
  have hinc : l.inc.toNat % 2 = 1 := by
    simpa [BitVec.getLsbD, Nat.testBit_zero] using l.inc_bit0
  have hstate := l.state.isLt
  simp only [Lane.stride, laneStep_state, BitVec.toNat_sub, BitVec.toNat_add, BitVec.toNat_mul, mult,
    BitVec.toNat_ofNat]
  omega

/-- `n` steps move the state by `stepSum n` times the first of them. -/
theorem laneSteps_state (n : Nat) (l : Lane) :
    (laneSteps n l).state = l.state + BitVec.ofNat 64 (stepSum n) * l.stride := by
  induction n generalizing l with
  | zero => rw [laneSteps_zero, stepSum_zero, BitVec.zero_mul, BitVec.add_zero]
  | succ n ih =>
    have hfirst : (laneStep l).state = l.state + l.stride := by rw [Lane.stride, add_sub_cancel]
    have hsum : BitVec.ofNat 64 (stepSum (n + 1)) = mult * BitVec.ofNat 64 (stepSum n) + 1 := by
      rw [stepSum_succ, BitVec.ofNat_add, BitVec.ofNat_mul, BitVec.ofNat_toNat, BitVec.setWidth_eq]
      rfl
    rw [laneSteps_succ, ih, laneStep_stride, hfirst, hsum]
    ring

/-- A lane comes back to where it was only after a multiple of 2^64 steps: the stride is odd, so all of 2^64 divides
`stepSum n` (R126). -/
theorem two_pow_64_dvd_of_laneSteps_eq_self {n : Nat} {l : Lane} (h : laneSteps n l = l) : 2 ^ 64 ∣ n := by
  have hmove : BitVec.ofNat 64 (stepSum n) * l.stride = 0#64 :=
    left_eq_add.mp ((congrArg Lane.state h).symm.trans (laneSteps_state n l))
  have hdvd : 2 ^ 64 ∣ stepSum n * l.stride.toNat := Nat.dvd_of_mod_eq_zero <| by
    simpa only [BitVec.toNat_mul, BitVec.toNat_ofNat, Nat.mod_mul_mod, Nat.zero_mod] using congrArg BitVec.toNat hmove
  have hcoprime : Nat.Coprime (2 ^ 64) l.stride.toNat :=
    Nat.Coprime.pow_left 64 (Nat.coprime_two_left.mpr (Nat.odd_iff.mpr l.stride_odd))
  exact (two_pow_dvd_stepSum_iff 64 n).mp (hcoprime.dvd_of_dvd_mul_right hdvd)

/-- Settles O24: 2^64 steps return, a smaller positive number is no multiple of 2^64, and NEXT steps both lanes. -/
theorem lanePeriodIsTwoToThe64 : Obligations.LanePeriodIsTwoToThe64 := by
  refine ⟨laneSteps_two_pow_64, fun l n hpos hlt h => ?_, fun s => ?_⟩
  · exact absurd (Nat.le_of_dvd hpos (two_pow_64_dvd_of_laneSteps_eq_self h)) (Nat.not_le.mpr hlt)
  · obtain ⟨hA, hB⟩ := afterNexts_lanes (2 ^ 64) s
    rw [hA, hB]
    exact ⟨laneSteps_two_pow_64 _, laneSteps_two_pow_64 _⟩

end Sys2Proof.Machine
end

section
/-! PROOF. The jump family (`42_jump.md`): ADVANCE as steps of both lanes (R143, R144), jumps composed and undone (R145, R146),
how often the loop of R141 runs (R142), and its registers in closed form (R147). -/

namespace Sys2Proof.Machine

open Sys2Proof

/-! ### ADVANCE is a number of steps (R143, R144) -/

/-- Settles O27: each lane's jump is `delta` of its steps (R144). -/
theorem advanceStepsBothLanes : Obligations.AdvanceStepsBothLanes := by
  intro delta s
  refine ⟨rfl, ?_⟩
  rw [exec_advance, laneJump_eq_laneSteps, laneJump_eq_laneSteps]
  rfl

/-- The lanes an ADVANCE leaves (R143). -/
theorem exec_advance_lanes {d : Word} {s t : State} (h : exec (.advance d) s = .next t) :
    t.laneA = laneJump s.laneA d ∧ t.laneB = laneJump s.laneB d := by
  rw [exec_advance] at h
  cases h
  exact ⟨rfl, rfl⟩

/-- A jump of `n` is `n` steps (R144). -/
theorem laneJump_ofNat (l : Lane) {n : Nat} (h : n < 2 ^ 64) : laneJump l (BitVec.ofNat 64 n) = laneSteps n l := by
  rw [laneJump_eq_laneSteps, BitVec.toNat_ofNat, Nat.mod_eq_of_lt h]

/-- Settles O28: both sides are `n` steps of each lane. -/
theorem advanceEqualsRepeatedNext : Obligations.AdvanceEqualsRepeatedNext := by
  refine ⟨fun l n => laneJump_ofNat l, fun s t n hn h => ?_⟩
  obtain ⟨hA, hB⟩ := exec_advance_lanes h
  obtain ⟨hA', hB'⟩ := afterNexts_lanes n s
  rw [hA, hB, hA', hB']
  exact ⟨laneJump_ofNat _ hn, laneJump_ofNat _ hn⟩

/-! ### Jumps composed and undone (R145, R146) -/

/-- Steps are LaneStep iterated (R144). -/
theorem laneSteps_eq_iterate (n : Nat) (l : Lane) : laneSteps n l = laneStep^[n] l := by
  induction n generalizing l with
  | zero => rfl
  | succ n ih => rw [laneSteps_succ, ih, Function.iterate_succ_apply]

/-- Only the number of steps modulo 2^64 matters (R126). -/
theorem laneSteps_mod (n : Nat) (l : Lane) : laneSteps (n % 2 ^ 64) l = laneSteps n l := by
  have hperiod : Function.IsPeriodicPt laneStep (2 ^ 64) l :=
    (laneSteps_eq_iterate (2 ^ 64) l).symm.trans (laneSteps_two_pow_64 l)
  rw [laneSteps_eq_iterate, laneSteps_eq_iterate, hperiod.iterate_mod_apply]

/-- Two jumps of a lane are one jump of the sum (R145). -/
theorem laneJump_laneJump (l : Lane) (a b : Word) : laneJump (laneJump l a) b = laneJump l (a + b) := by
  simp only [laneJump_eq_laneSteps]
  rw [BitVec.toNat_add, laneSteps_mod, laneSteps_add]

/-- Settles O29: lane by lane. -/
theorem jumpsAdd : Obligations.JumpsAdd := by
  intro a b s t u ht hu
  obtain ⟨hA, hB⟩ := exec_advance_lanes ht
  obtain ⟨hA', hB'⟩ := exec_advance_lanes hu
  refine ⟨_, exec_advance _ _, ?_, ?_⟩
  · rw [hA', hA, laneJump_laneJump]
    rfl
  · rw [hB', hB, laneJump_laneJump]
    rfl

/-- A jump of 0 is no jump (R146). -/
theorem laneJump_zero (l : Lane) : laneJump l 0#64 = l := by
  rw [laneJump_eq_laneSteps, BitVec.toNat_zero, laneSteps_zero]

/-- ADVANCE undone by ADVANCE of the negative (R146). -/
theorem exec_advance_neg_lanes {n : Word} {s t u : State} (ht : exec (.advance n) s = .next t)
    (hu : exec (.advance (-n)) t = .next u) : u.laneA = s.laneA ∧ u.laneB = s.laneB := by
  obtain ⟨hA, hB⟩ := exec_advance_lanes ht
  obtain ⟨hA', hB'⟩ := exec_advance_lanes hu
  rw [hA', hA, hB', hB]
  exact ⟨laneJump_neg_laneJump _ _, laneJump_neg_laneJump _ _⟩

/-- Settles O30: 2^63 is its own negative, and the other parts are facts about one lane. -/
theorem jumpsInvert : Obligations.JumpsInvert := by
  have htop : (0x8000000000000000#64) = -0x8000000000000000#64 := by decide
  refine ⟨fun n s t u => exec_advance_neg_lanes, fun s t u ht hu => ?_, fun s t h => ?_, laneSteps_two_pow_64⟩
  · rw [htop] at hu
    exact exec_advance_neg_lanes ht hu
  · obtain ⟨hA, hB⟩ := exec_advance_lanes h
    rw [hA, hB]
    exact ⟨laneJump_zero _, laneJump_zero _⟩

/-! ### How often the loop runs (R142) -/

/-- `bitlen(D)` is the least number of bits that hold `D` (R142). -/
theorem bitlen_le_iff (d : Word) (k : Nat) : bitlen d ≤ k ↔ d.toNat < 2 ^ k := by
  by_cases h0 : d = 0#64
  · simp [bitlen, h0]
  · have hne : d.toNat ≠ 0 := fun h => h0 (BitVec.eq_of_toNat_eq h)
    rw [bitlen, if_neg h0, Nat.succ_le_iff, Nat.log2_lt hne]

theorem bitlen_le (d : Word) : bitlen d ≤ 64 := (bitlen_le_iff d 64).mpr d.isLt

/-- A count with bit 63 set has all 64 bits (R142). -/
theorem bitlen_of_msb {d : Word} (h : d.msb = true) : bitlen d = 64 := by
  have hge : 2 ^ 63 ≤ d.toNat := BitVec.toNat_ge_of_msb_true h
  have hlong : ¬ bitlen d ≤ 63 := fun hle => absurd ((bitlen_le_iff d 63).mp hle) (Nat.not_lt.mpr hge)
  have hle := bitlen_le d
  omega

theorem JumpUnit.iterations_zero (j : JumpUnit) : j.iterations 0 = j := rfl

theorem JumpUnit.iterations_succ (n : Nat) (j : JumpUnit) : j.iterations (n + 1) = j.iterate.iterations n := rfl

/-- Iterations compose. -/
theorem JumpUnit.iterations_add (m n : Nat) (j : JumpUnit) :
    j.iterations (m + n) = (j.iterations m).iterations n := by
  induction m generalizing j with
  | zero => rw [Nat.zero_add, JumpUnit.iterations_zero]
  | succ m ih => rw [Nat.succ_add, JumpUnit.iterations_succ, JumpUnit.iterations_succ, ih]

/-- Each iteration shifts one bit out of the count (R141). -/
theorem JumpUnit.iterations_rem_toNat (n : Nat) (j : JumpUnit) :
    (j.iterations n).rem.toNat = j.rem.toNat / 2 ^ n := by
  induction n generalizing j with
  | zero => rw [JumpUnit.iterations_zero, pow_zero, Nat.div_one]
  | succ n ih => rw [JumpUnit.iterations_succ, ih, JumpUnit.iterate_rem_toNat, Nat.div_div_eq_div_mul, pow_succ']

/-- The count is used up after `bitlen` iterations and not before (R142). -/
theorem JumpUnit.iterations_rem_eq_zero_iff (n : Nat) (j : JumpUnit) :
    (j.iterations n).rem = 0#64 ↔ bitlen j.rem ≤ n := by
  rw [bitlen_le_iff, ← BitVec.toNat_inj, BitVec.toNat_zero, JumpUnit.iterations_rem_toNat,
    Nat.div_eq_zero_iff_lt (Nat.two_pow_pos n)]

/-- The loop's test is met in each of the first `m` iterations and fails then: it makes `m` of them (R141). -/
theorem JumpUnit.run_eq_iterations {n m : Nat} {j : JumpUnit} (hmn : m ≤ n)
    (hmore : ∀ k, k < m → (j.iterations k).rem ≠ 0#64) (hdone : (j.iterations m).rem = 0#64) :
    JumpUnit.run n j = j.iterations m := by
  induction m generalizing n j with
  | zero => exact JumpUnit.run_done n hdone
  | succ m ih =>
    obtain ⟨n, rfl⟩ := Nat.exists_eq_add_of_le' hmn
    have hrem : j.rem ≠ 0#64 := hmore 0 (Nat.succ_pos m)
    rw [← Nat.add_assoc, JumpUnit.run_more _ hrem, JumpUnit.iterations_succ]
    exact ih (Nat.le_add_left m n) (fun k hk => hmore (k + 1) (Nat.succ_lt_succ hk)) hdone

/-- The loop makes `bitlen` iterations (R142). -/
theorem jumpUnit_eq_iterations (l : Lane) (d : Word) : jumpUnit l d = (JumpUnit.init l d).iterations (bitlen d) :=
  JumpUnit.run_eq_iterations (bitlen_le d)
    (fun k hk h => absurd ((JumpUnit.iterations_rem_eq_zero_iff k _).mp h) (Nat.not_le.mpr hk))
    ((JumpUnit.iterations_rem_eq_zero_iff _ _).mpr le_rfl)

/-- An iteration with nothing of the count left keeps the accumulators (R142). -/
theorem JumpUnit.iterate_of_rem_zero {j : JumpUnit} (h : j.rem = 0#64) :
    j.iterate.accMult = j.accMult ∧ j.iterate.accPlus = j.accPlus ∧ j.iterate.rem = 0#64 := by
  simp [JumpUnit.iterate, h]

theorem JumpUnit.iterations_of_rem_zero (n : Nat) {j : JumpUnit} (h : j.rem = 0#64) :
    (j.iterations n).accMult = j.accMult ∧ (j.iterations n).accPlus = j.accPlus := by
  induction n generalizing j with
  | zero => exact ⟨rfl, rfl⟩
  | succ n ih =>
    obtain ⟨hmult, hplus, hrem⟩ := JumpUnit.iterate_of_rem_zero h
    rw [JumpUnit.iterations_succ, ← hmult, ← hplus]
    exact ih hrem

/-- Settles O32: the count is used up after exactly `bitlen` iterations, and later ones keep the accumulators. -/
theorem jumpRunsBitlenIterations : Obligations.JumpRunsBitlenIterations := by
  intro l d start
  have hrun : jumpUnit l d = start.iterations (bitlen d) := jumpUnit_eq_iterations l d
  have hzero : ∀ k, (start.iterations k).rem = 0#64 ↔ bitlen d ≤ k := fun k =>
    JumpUnit.iterations_rem_eq_zero_iff k start
  have hdone : (start.iterations (bitlen d)).rem = 0#64 := (hzero _).mpr le_rfl
  have hrest : start.iterations 64 = (jumpUnit l d).iterations (64 - bitlen d) := by
    rw [hrun, ← JumpUnit.iterations_add, Nat.add_sub_cancel' (bitlen_le d)]
  refine ⟨hrun, fun k hk h => absurd ((hzero k).mp h) (Nat.not_le.mpr hk), hdone, bitlen_le d, bitlen_of_msb, ?_⟩
  rw [hrest]
  exact JumpUnit.iterations_of_rem_zero _ (by rw [hrun, hdone])

/-! ### The registers in closed form (R147) -/

/-- The current multiplier is squared in each iteration, whatever the lane (R141). -/
theorem JumpUnit.iterations_curMult (n : Nat) (j : JumpUnit) : (j.iterations n).curMult = j.curMult ^ 2 ^ n := by
  induction n generalizing j with
  | zero => rw [JumpUnit.iterations_zero, pow_zero, pow_one]
  | succ n ih =>
    have hsq : j.iterate.curMult = j.curMult ^ 2 := (pow_two j.curMult).symm
    rw [JumpUnit.iterations_succ, ih, hsq, ← pow_mul, ← pow_succ']

theorem jumpUnit_curMult (l : Lane) (d : Word) : (jumpUnit l d).curMult = mult ^ 2 ^ bitlen d := by
  rw [jumpUnit_eq_iterations, JumpUnit.iterations_curMult]
  rfl

/-- The loop reads nothing of the lane but its increment (R141). -/
theorem jumpUnit_congr_inc {l l' : Lane} (h : l.inc = l'.inc) (d : Word) : jumpUnit l d = jumpUnit l' d := by
  simp only [jumpUnit, JumpUnit.init, h]

/-- The map of a number of steps is one map: its value at 0 is its additive part, and its value at 1 gives the factor. -/
theorem Lane.StepsAs.unique {l : Lane} {n : Nat} {m p m' p' : Word} (h : l.StepsAs n m p) (h' : l.StepsAs n m' p') :
    m = m' ∧ p = p' := by
  have heq : ∀ x : Word, m * x + p = m' * x + p' := fun x => congrArg Lane.state ((h x).symm.trans (h' x))
  have hp : p = p' := by simpa only [mul_zero, zero_add] using heq 0
  have hm : m + p = m' + p' := by simpa only [mul_one] using heq 1
  rw [hp] at hm
  exact ⟨add_right_cancel hm, hp⟩

theorem ofNat_stepSum_succ (n : Nat) :
    BitVec.ofNat 64 (stepSum (n + 1)) = mult * BitVec.ofNat 64 (stepSum n) + 1 := by
  rw [stepSum_succ, BitVec.ofNat_add, BitVec.ofNat_mul, BitVec.ofNat_toNat, BitVec.setWidth_eq]
  rfl

/-- The map of `n` steps: the increments of the steps before are multiplied by each later one (R120, R147). -/
theorem Lane.stepsAs_closed (l : Lane) (n : Nat) :
    l.StepsAs n (mult ^ n) (l.inc * BitVec.ofNat 64 (stepSum n)) := by
  induction n with
  | zero =>
    rw [stepSum_zero, pow_zero, BitVec.mul_zero]
    exact l.stepsAs_zero
  | succ n ih =>
    have hplus : l.inc * BitVec.ofNat 64 (stepSum (n + 1)) =
        l.inc * BitVec.ofNat 64 (stepSum n) * mult + l.inc := by
      rw [ofNat_stepSum_succ]
      ring
    rw [hplus, pow_succ]
    exact ih.add l.stepsAs_one

/-- The accumulators are the map of `d` steps (R141, R144). -/
theorem jumpUnit_stepsAs (l : Lane) (d : Word) :
    l.StepsAs d.toNat (jumpUnit l d).accMult (jumpUnit l d).accPlus := fun x => by
  rw [← laneJump_eq_laneSteps, laneJump, jumpUnit_congr_inc (l.setState_inc x)]
  rfl

/-- The accumulators in closed form (R147). -/
theorem jumpUnit_acc (l : Lane) (d : Word) :
    (jumpUnit l d).accMult = mult ^ d.toNat ∧ (jumpUnit l d).accPlus = l.inc * BitVec.ofNat 64 (stepSum d.toNat) :=
  (jumpUnit_stepsAs l d).unique (l.stepsAs_closed d.toNat)

/-- Settles O31: the multipliers are powers of `mult`, and the unit reads the increment alone. -/
theorem jumpRegistersInClosedForm : Obligations.JumpRegistersInClosedForm := by
  intro l l' d
  obtain ⟨hmult, hplus⟩ := jumpUnit_acc l d
  obtain ⟨hmult', -⟩ := jumpUnit_acc l' d
  refine ⟨?_, ?_, fun h => ?_, ?_, ?_⟩
  · rw [jumpUnit_curMult, jumpUnit_curMult]
  · rw [hmult, hmult']
  · rw [jumpUnit_congr_inc h]
    exact ⟨rfl, rfl⟩
  · rw [hmult, BitVec.toNat_pow]
  · rw [hplus, BitVec.toNat_mul, BitVec.toNat_ofNat, Nat.mul_mod_mod, stepSum]

end Sys2Proof.Machine
end

section
/-! PROOF. The readback family (`43_readback.md`): what READ_STATE and READ_STATUS answer (R160, R162), what they leave alone,
and that no command after one notices it (R163). -/

namespace Sys2Proof.Machine

open Sys2Proof

/-! ### What a response leaves alone (R9) -/

/-- A response writes no lane register (R60). -/
@[simp] theorem State.respond_x (s : State) (c : Code) (v : Word) (r : LaneReg) : (s.respond c v).x r = s.x r := by
  cases r <;> rfl

/-- A response writes no STATUS bit (R60). -/
@[simp] theorem State.respond_status (s : State) (c : Code) (v : Word) : (s.respond c v).status = s.status := rfl

/-! ### The two readbacks (R160, R162) -/

theorem exec_readState (r : LaneReg) (s : State) : exec (.readState r) s = .next (s.respond .ok (s.x r)) := rfl

theorem exec_readStatus (s : State) : exec .readStatus s = .next (s.respond .ok s.status) := rfl

/-- A readback is its response and nothing else (R163). -/
theorem exec_readback {i : Instr} {s t : State} (hi : i = .readStatus ∨ ∃ r, i = .readState r)
    (h : exec i s = .next t) : ∃ v, t = s.respond .ok v := by
  rcases hi with rfl | ⟨r, rfl⟩
  · exact ⟨_, Host.Outcome.next.inj (h.symm.trans (exec_readStatus s))⟩
  · exact ⟨_, Host.Outcome.next.inj (h.symm.trans (exec_readState r s))⟩

/-- The transaction of a READ_STATE: the selector above the opcode, and no beat (R160). -/
theorem encode_readState (r : LaneReg) : encode (.readState r) = { word := mkWord r.sel 0x30#8, beats := [] } := rfl

/-- The bits of STATUS (R27). -/
theorem State.status_getLsbD (s : State) (k : Nat) :
    s.status.getLsbD k = if k = 0 then s.seeded else if k = 1 then s.entFail else false := by
  rw [State.status_eq, statusWord_getLsbD]

/-! ### No command reads the responses sent (R60, R163) -/

/-- A SEED_DRAW that finds no word sends what it sends whatever was sent before. -/
theorem awaitWords_responses_of_no_word (n : Nat) {s : State}
    (h : ¬ ∃ v rest, wake s.requests s.inputs = some (.answer (.word v), rest)) :
    ∃ new, ∀ rs, awaitWords n { s with responses := rs } = { awaitWords n s with responses := new ++ rs } := by
  by_cases hfail : ∃ rest, wake s.requests s.inputs = some (.answer .fail, rest)
  · obtain ⟨rest, hfail⟩ := hfail
    refine ⟨[{ code := .entropy, result := 0#64 }], fun rs => ?_⟩
    rw [awaitWords_fail hfail, awaitWords_fail (s := { s with responses := rs }) hfail]
    rfl
  · have hnone : ∀ a rest, wake s.requests s.inputs ≠ some (.answer a, rest)
      | .word v, rest => fun hw => h ⟨v, rest, hw⟩
      | .fail, rest => fun hw => hfail ⟨rest, hw⟩
    refine ⟨[], fun rs => ?_⟩
    rw [awaitWords_wait hnone, awaitWords_wait (s := { s with responses := rs }) hnone]
    rfl

/-- The loop of SEED_DRAW sends what it sends whatever was sent before. -/
theorem awaitWords_responses (n : Nat) (s : State) :
    ∃ new, ∀ rs, awaitWords n { s with responses := rs } = { awaitWords n s with responses := new ++ rs } := by
  induction n generalizing s with
  | zero =>
    by_cases hword : ∃ v rest, wake s.requests s.inputs = some (.answer (.word v), rest)
    · obtain ⟨v, rest, hword⟩ := hword
      refine ⟨[{ code := .ok, result := 0#64 }], fun rs => ?_⟩
      rw [awaitWords_last hword, awaitWords_last (s := { s with responses := rs }) hword, finishDraw_eq, finishDraw_eq]
      rfl
    · exact awaitWords_responses_of_no_word 0 hword
  | succ n ih =>
    by_cases hword : ∃ v rest, wake s.requests s.inputs = some (.answer (.word v), rest)
    · obtain ⟨v, rest, hword⟩ := hword
      obtain ⟨new, hnew⟩ := ih (s.collect v rest).request
      refine ⟨new, fun rs => ?_⟩
      rw [awaitWords_word hword, awaitWords_word (s := { s with responses := rs }) hword]
      exact hnew rs
    · exact awaitWords_responses_of_no_word (n + 1) hword

/-- A command does the same, and sends the same, whatever activity it finds and whatever was sent before. -/
theorem exec_activity_responses {i : Instr} {s t : State} (h : exec i s = .next t) :
    ∃ new, ∀ a rs, exec i { s with activity := a, responses := rs } = .next { t with responses := new ++ rs } := by
  cases i with
  | seed a b c d => cases h; exact ⟨[{ code := .ok, result := 0#64 }], fun _ _ => rfl⟩
  | seedBytes block =>
    simp only [exec, execSeedBytes] at h ⊢
    split at h
    next hlen => cases h; exact ⟨[{ code := .ok, result := 0#64 }], fun _ _ => by rw [if_pos hlen]; rfl⟩
    next => cases h
  | seedDraw =>
    cases h
    obtain ⟨new, hnew⟩ := awaitWords_responses (drawCount - 1) (beginDraw s)
    exact ⟨new, fun _ rs => congrArg Host.Outcome.next (hnew rs)⟩
  | next =>
    cases h
    exact ⟨[{ code := .ok, result := permute s.laneA.state ++ permute s.laneB.state }], fun _ _ => rfl⟩
  | advance d => cases h; exact ⟨[{ code := .ok, result := 0#64 }], fun _ _ => rfl⟩
  | readState r => cases h; exact ⟨[{ code := .ok, result := s.x r }], fun _ _ => by cases r <;> rfl⟩
  | readStatus => cases h; exact ⟨[{ code := .ok, result := s.status }], fun _ _ => rfl⟩

/-- Settles O37: a readback writes the activity and the responses alone, and no command reads either. -/
theorem readbackHasNoSideEffect : Obligations.ReadbackHasNoSideEffect := by
  intro i j s t u hi ht hu
  obtain ⟨v, rfl⟩ := exec_readback hi ht
  obtain ⟨new, hnew⟩ := exec_activity_responses hu
  have hsame : u = { u with responses := new ++ s.responses } :=
    Host.Outcome.next.inj (hu.symm.trans (hnew s.activity s.responses))
  exact ⟨new, congrArg State.responses hsame, hnew _ _⟩

/-! ### The values read (R27, R160, R162, R217) -/

/-- Settles O25: READ_STATE shows the state registers, and NEXT permutes what they hold before its step, in whatever state
the NEXT before them left. -/
theorem drawLagsTheVisibleState : Obligations.DrawLagsTheVisibleState := by
  intro s t _
  exact ⟨_, _, _, exec_readState .stateA t, exec_readState .stateB t, exec_next t, t.x .stateA, t.x .stateB, rfl, rfl, rfl⟩

/-- Settles O34: the response carries the register `State.x` reads, and is all there is. -/
theorem readStateReturnsTheRegister : Obligations.ReadStateReturnsTheRegister := by
  intro s answers
  have hanswers : ∀ r w, mkWord r.sel 0x30#8 = w → answers r w (s.x r) := by
    rintro r _ rfl
    exact ⟨encode_readState r, exec_readState r s⟩
  exact ⟨hanswers .stateA _ (by decide), hanswers .incA _ (by decide), hanswers .stateB _ (by decide),
    hanswers .incB _ (by decide)⟩

/-- Settles O35: the response carries STATUS, whose bits are those of R27. -/
theorem readStatusReturnsTheTwoBits : Obligations.ReadStatusReturnsTheTwoBits := by
  refine ⟨by decide, fun s => ⟨s.status, exec_readStatus s, ?_, s.status_bit1, fun k hk => ?_⟩⟩
  · rw [State.status_getLsbD, if_pos rfl]
  · have h0 : k ≠ 0 := by omega
    have h1 : k ≠ 1 := by omega
    rw [State.status_getLsbD, if_neg h0, if_neg h1]

/-- Settles O39: a response writes none of these. -/
theorem readbackFrame : Obligations.ReadbackFrame := by
  intro i s t hi h
  obtain ⟨v, rfl⟩ := exec_readback hi h
  exact ⟨s.respond_x .ok v, s.respond_status .ok v, s.respond_entropyBuf .ok v, s.respond_requests .ok v,
    s.respond_inputs .ok v⟩

end Sys2Proof.Machine
end

section
/-! PROOF. The exceptions family (`60_exceptions.md`): every well-formed command but SEED_DRAW completes with OK (R181), reset
takes precedence (R185, R210), and a SEED_DRAW that nothing answers waits (R190, R216). -/

namespace Sys2Proof.Machine

open Sys2Proof

/-- Only SEED_DRAW can end with ENTROPY or be left waiting: any other command that has a next state is answered OK (R110,
R181). -/
theorem exec_ok_of_ne_seedDraw {i : Instr} {s t : State} (hne : i ≠ .seedDraw) (h : exec i s = .next t) :
    t.activity = .idle ∧ ∃ v, t.responses = { code := .ok, result := v } :: s.responses := by
  rcases exec_cases h with ⟨v, hr, ha, -⟩ | ⟨hdraw, -⟩
  · exact ⟨ha, v, hr⟩
  · exact absurd hdraw hne

/-- Settles O41: a well-formed command has a next state, and it is answered OK there. -/
theorem legalCommandsCompleteWithOk : Obligations.LegalCommandsCompleteWithOk := by
  intro i s hwf hne
  obtain ⟨t, ht⟩ := exec_of_wf s hwf
  obtain ⟨ha, v, hr⟩ := exec_ok_of_ne_seedDraw hne ht
  exact ⟨t, v, ht, ha, hr⟩

/-- Where reset is the next event that reaches the core, the step is that reset: in a BUSY core, in an IDLE one, and over a
command it cuts short (R185, R210). -/
theorem step_of_resetComes {s : State} {rest : List Input} (h : s.ResetComes rest) :
    step s = .next (s.enterReset rest) := by
  rcases h with ⟨hbusy, hw⟩ | ⟨hidle, hin | ⟨c, hin⟩⟩
  · exact step_busy_reset hbusy hw
  · exact step_idle_reset hidle hin
  · exact step_idle_cut hidle hin

/-- Settles O49: the three places are those where reset comes, and `State.enterReset` is the state written out. -/
theorem resetAbandonsTheCommand : Obligations.ResetAbandonsTheCommand := by
  intro s rest h
  have hcomes : s.ResetComes rest := by rwa [State.ResetComes, and_or_left]
  exact step_of_resetComes hcomes

/-- Settles O17: with nothing to wake it, the event of a BUSY core settles the state it is in. -/
theorem busyCoreWaitsForever : Obligations.BusyCoreWaitsForever := by
  intro s hbusy hw
  exact step_busy_none hbusy hw

end Sys2Proof.Machine
end

section
/-! PROOF. The reset and hazards family (`70_reset_and_hazards.md`): an answer to an abandoned request (R210, I12). -/

namespace Sys2Proof.Machine

open Sys2Proof

/-- Events that wake a SEED_DRAW alike let it go on alike (R190). -/
theorem resumeDraw_inputs {s : State} {ins : List Input} (h : wake s.requests s.inputs = wake s.requests ins)
    (ha : ∃ a rest, wake s.requests s.inputs = some (.answer a, rest)) :
    resumeDraw s = resumeDraw { s with inputs := ins } :=
  awaitWords_inputs h ha

/-- Events that wake a BUSY core alike make its step alike: it reads no more of them than what wakes it, and the events left
after that (R190, R210). -/
theorem step_busy_inputs {s : State} {ins : List Input} (hbusy : s.activity = .busy)
    (h : wake s.requests s.inputs = wake s.requests ins) (hw : wake s.requests ins ≠ none) :
    step s = step { s with inputs := ins } := by
  obtain ⟨⟨w, left⟩, hins⟩ := Option.ne_none_iff_exists'.mp hw
  have hs : wake s.requests s.inputs = some (w, left) := h.trans hins
  cases w with
  | answer a =>
    rw [step_busy_answer hbusy ⟨a, left, hs⟩, step_busy_answer (s := { s with inputs := ins }) hbusy ⟨a, left, hins⟩,
      resumeDraw_inputs h ⟨a, left, hs⟩]
  | reset =>
    rw [step_busy_reset hbusy hs, step_busy_reset (s := { s with inputs := ins }) hbusy hins]
    rfl

/-- Settles O50: an IDLE core drops the answer, and to a BUSY one a late answer wakes nothing (`wake_late`), so the events
behind it alone decide the step. -/
theorem lateAnswersAreIgnored : Obligations.LateAnswersAreIgnored := by
  intro s n a rest hin
  refine ⟨fun hidle => step_idle_answer hidle hin, fun hbusy hlate => ?_⟩
  have hwake : wake s.requests s.inputs = wake s.requests rest := by rw [hin, wake_late hlate]
  exact ⟨fun hnone => step_busy_none hbusy (hwake.trans hnone), fun hsome => step_busy_inputs hbusy hwake hsome⟩

end Sys2Proof.Machine
end
